-- ==== Sys2Proof/Word.lean ====
section
/-! DEFINITION. The machine's word and the byte of its device port (spec 00_scope.md R6, R7). -/

namespace Sys2Proof

/-- A 16-bit word: a register, a memory cell, an address, an instruction (R6, `WORD` and `ADDR_BITS`).
`+` on it is taken modulo 2^16 (R7). -/
abbrev Word := BitVec 16

/-- A byte of the device port, or a trap vector (R50, R70). -/
abbrev Byte := BitVec 8

/-- The index of a general register, R0 to R7; no index is out of range (R22, D35; log 21). -/
abbrev Reg := Fin 8

end Sys2Proof
end

