-- ==== Sys2Proof/Config.lean ====
section
/-! DEFINITION. The implementation parameters of 00_scope.md R6. The decided ones have the value the spec gives;
the OPEN ones have no body, so that every theorem holds for each of their values. -/

namespace Sys2Proof.Config

/-- `PC_WRAP_POLICY` (R6, R80): what the fetch increment does at 0xFFFF. -/
inductive PcWrapPolicy where
  | fault
  | wrap
  deriving DecidableEq, Repr

/-- `KBSR_ADDR`, decided D5 (log 11). PRESUMED by the spec (general knowledge). -/
def kbsrAddr : Word := 0xFE00#16

/-- `KBDR_ADDR`, decided D5 (log 11). PRESUMED by the spec (general knowledge). -/
def kbdrAddr : Word := 0xFE02#16

/-- `PC_WRAP_POLICY` is `fault` for this hardware, decided D9 (log 10). DESIGN CHOICE of the spec, safe. -/
def pcWrapPolicy : PcWrapPolicy := .fault

/-- `TRAP_SAVES_R7`, OPEN D15 (log 9): does TRAP write the link register? -/
opaque trapSavesR7 : Bool

/-- `IN_PROMPT`, OPEN D16 (log 9): the bytes IN emits before it reads. -/
opaque inPrompt : List Byte

/-- `IN_ECHO`, OPEN D17 (log 9): does IN emit the byte it read? -/
opaque inEcho : Bool

/-- `HALT_OUTPUT`, OPEN D18 (log 9): the bytes HALT emits. -/
opaque haltOutput : List Byte

/-- What the device answers from one call on, as far as its next pause (log 6): some bytes other than 0x00 and then
0x00, or some such bytes and then a call that is never answered, or such bytes at every later call. Every sequence of
answers falls into such bursts. -/
inductive Burst where
  | zeroAfter (bytes : Nat)
  | silentAfter (bytes : Nat)
  | forever
  deriving DecidableEq, Repr, Inhabited

/-- `DEV`, OPEN D22 (log 6): the burst that begins at a call, by the device and the number of the call. -/
opaque devBurst : Nat → Nat → Burst

/-- `DEV`, OPEN D22 (log 6): the byte inside a burst that answers a call, less one, by the device and the number of the
call. -/
opaque devByte : Nat → Nat → Fin 255

end Sys2Proof.Config
end

