-- ==== Sys2Proof/Machine/State.lean ====
section
/-! DEFINITION. The state of one instance (10_state.md), the reasons a step can stop, and the state after reset. -/

namespace Sys2Proof.Machine

/-- The run state (R30). -/
inductive RunState where
  | running
  | halted
  deriving DecidableEq, Repr

/-- One listed memory cell: a word address and its word. The space is word-addressed (R40), so the unit is the
16-bit word and not the byte (log 1). -/
abbrev Cell := Nat × Word

/-- Memory in canonical form: addresses strictly rising, none at or above 0x10000, and no entry equal to what an
unlisted address reads as (`Memory.wf` in Ops.lean; logs 1 and 2). -/
abbrev Memory := List Cell

/-- The device's answers to the `read_byte` calls still to come: the OPEN oracle `DEV` as an input of the step
(R34, R50, D22; log 6). Not architectural state: the model's own field. `script` is answered in order, `burst` after
it, and every answer after that is free: no law relates one call to another, nor one device to another (R12).
DESIGN CHOICE (log 6): two instances have the same free answers exactly as far as their `source` and `calls` agree, so
a claim about two unrelated instances leaves the two sources free. -/
structure Device where
  /-- Answers that a statement or a test names. -/
  script : List Byte
  /-- The answers after the script, as far as the next pause. -/
  burst : Sys2Proof.Config.Burst
  /-- Which device this is: the free answers of two sources are unrelated. -/
  source : Nat
  /-- The number of calls the bursts have answered: the counter that the free answers are read at. -/
  calls : Nat
  deriving DecidableEq, Repr

/-- The state of 10_state.md, and the device's answers still to come. KBSR and KBDR are cells of `mem` (R32). -/
structure State where
  /-- The general registers R0 to R7 (R20). -/
  x : Vector Word 8
  /-- The program counter (R23): during an instruction, its address plus one (R24). -/
  pc : Word
  /-- The condition flags: N is bit 2, Z bit 1, P bit 0 (R25). -/
  cond : BitVec 3
  /-- The 65,536 words of memory (R40). -/
  mem : Memory
  /-- The run state (R30). -/
  run : RunState
  /-- The bytes passed to `write_byte`, oldest first (R35). -/
  out : List Byte
  /-- The device's answers still to come (log 6). -/
  dev : Device
  deriving DecidableEq, Repr

/-- What a fatal fault records (R201, R202, D10; log 18). -/
structure FaultRecord where
  /-- `a`: the address the faulting instruction was fetched from. -/
  addr : Word
  /-- `ir`: the instruction word. -/
  ir : Word
  /-- The state after the fetch of the faulting instruction. -/
  state : State
  deriving DecidableEq, Repr

/-- Why the machine stops. The first four are the fatal faults of R200; the last two are steps that never complete. -/
inductive Fault where
  /-- Code 1, raised by RTI (R172). The spec's own fault: neither safe nor unsafe, exact. -/
  | rti (record : FaultRecord)
  /-- Code 2, raised by the reserved opcode (R173). The spec's own fault, exact. -/
  | reserved (record : FaultRecord)
  /-- Code 3, raised by TRAP with a vector that is none of the six (R170); it also records the vector (R202). Exact. -/
  | badTrap (vector : Byte) (record : FaultRecord)
  /-- Code 4, raised by the fetch from 0xFFFF under `PC_WRAP_POLICY` = fault (R80, R200). Safe (D9; log 10). -/
  | pcWrap (record : FaultRecord)
  /-- STUCK: a `read_byte` call is never answered, so the step never completes (R52, I12; log 7). Raised by GETC, IN
  and every read of KBSR_ADDR. Safe: there is no next state. -/
  | deviceSilent
  /-- STUCK: the string of PUTS or PUTSP has no zero word, so the step never completes (R182, R184, I13; log 8). Safe. -/
  | stringEndless
  deriving DecidableEq, Repr

/-- Why the model gives no outcome. -/
inductive Refusal where
  /-- Raised by an arm of `exec` whose instruction has no meaning yet (none in this model). Safe. -/
  | notModelled (mnemonic : String)
  /-- Raised by `step` on a Halted instance: no step is defined there (R242, D11; log 17). Safe. -/
  | stepWhenHalted
  deriving DecidableEq, Repr

/-- The outcome of an instruction or a step. The spec's `Halt(State)` is `next` with `run` = Halted (R81; log 17). -/
abbrev Result := Host.Outcome State Fault Refusal

/-- The machine after reset with no image. `run` and `out` are the spec's (R36); the spec leaves the rest OPEN or to
the image, and the values here are DESIGN CHOICE, unsafe to lean on: registers 0 (log 3), `cond` 0b000 (log 4),
`pc` 0x3000 (log 5), memory 0 (log 2), the device (log 6). -/
def State.reset : State where
  x := Vector.replicate 8 0
  pc := 0x3000#16
  cond := 0b000#3
  mem := []
  run := .running
  out := []
  dev := { script := [], burst := .zeroAfter 0, source := 0, calls := 0 }

end Sys2Proof.Machine
end

