-- ==== Sys2Proof/Machine/Flags.lean ====
section
/-! DEFINITION. The condition flags (10_state.md R25 to R29). -/

namespace Sys2Proof.Machine

/-- The flags of a value (R27): Z = 0b010 for zero, N = 0b100 when bit 15 is set, else P = 0b001. -/
def condOf (v : Word) : BitVec 3 :=
  if v = 0x0000#16 then 0b010#3 else if v.getLsbD 15 then 0b100#3 else 0b001#3

/-- `setcc(v)` (R27). -/
def State.setcc (s : State) (v : Word) : State := { s with cond := condOf v }

/-- The branch condition (R26): the mask `ir[11:9]` meets the flags. -/
def branchTaken (nzp cond : BitVec 3) : Bool := nzp &&& cond != 0b000#3

end Sys2Proof.Machine
end

