-- ==== Sys2Proof/Machine/Params.lean ====
section
/-! DEFINITION. The parameters of 00_scope.md R6 as the machine reads them: each is Config's, named here once so that
every operation reads one name. -/

namespace Sys2Proof.Machine

/-- `KBSR_ADDR` (R44). -/
def kbsrAddr : Word := Sys2Proof.Config.kbsrAddr

/-- `KBDR_ADDR` (R44). -/
def kbdrAddr : Word := Sys2Proof.Config.kbdrAddr

/-- `PC_WRAP_POLICY` (R80). -/
def pcWrapPolicy : Sys2Proof.Config.PcWrapPolicy := Sys2Proof.Config.pcWrapPolicy

/-- `TRAP_SAVES_R7` (R170), OPEN. -/
def trapSavesR7 : Bool := Sys2Proof.Config.trapSavesR7

/-- `IN_PROMPT` (R183), OPEN. -/
def inPrompt : List Byte := Sys2Proof.Config.inPrompt

/-- `IN_ECHO` (R183), OPEN. -/
def inEcho : Bool := Sys2Proof.Config.inEcho

/-- `HALT_OUTPUT` (R185), OPEN. -/
def haltOutput : List Byte := Sys2Proof.Config.haltOutput

/-- `DEV` (R50), OPEN: the burst that begins at each call of each device. -/
def devBurst : Nat → Nat → Sys2Proof.Config.Burst := Sys2Proof.Config.devBurst

/-- `DEV` (R50), OPEN: the byte inside a burst at each call of each device, less one. -/
def devByte : Nat → Nat → Fin 255 := Sys2Proof.Config.devByte

end Sys2Proof.Machine
end

