-- ==== Sys2Proof/Machine/Ops.lean ====
section
/-! DEFINITION. The named operations over registers, memory, the device port and the keyboard (00_scope.md R10), the
fetch (30_encoding.md R80), raising a fatal fault (60_exceptions.md R201) and trap entry (R206). -/

namespace Sys2Proof.Machine

/-! ### Bytes and words -/

/-- `zext_16` (R9). -/
def zext16 (b : Byte) : Word := 0x00#8 ++ b

/-- `lo8` (R9): bits 7 to 0. -/
def lo8 (w : Word) : Byte := w.extractLsb' 0 8

/-- `hi8` (R9): bits 15 to 8. -/
def hi8 (w : Word) : Byte := w.extractLsb' 8 8

/-- A word from two image bytes, big-endian (R55 (a), R230). -/
def wordBE (hi lo : Byte) : Word := hi ++ lo

/-! ### Registers -/

/-- `x[r]` (R20). -/
def State.reg (s : State) (r : Reg) : Word := s.x[r.val]

/-- `x[r] <- v` (R20): no register is hardwired. -/
def State.setReg (s : State) (r : Reg) (v : Word) : State := { s with x := s.x.set r.val v }

/-- `pc <- target` (R24). -/
def State.setPc (s : State) (target : Word) : State := { s with pc := target }

/-- The write of a destination register that updates the flags from the value written (R28). -/
def State.setRegCc (s : State) (r : Reg) (v : Word) : State := (s.setReg r v).setcc v

/-- `run <- Halted` (R30). -/
def State.setHalted (s : State) : State := { s with run := .halted }

/-! ### Memory -/

/-- What an address that the list does not name reads as (log 2). DESIGN CHOICE: the spec leaves it OPEN (INIT_MEM). -/
def unlistedWord : Word := 0x0000#16

/-- The word at an address: no device, no side effect. -/
def Memory.read : Memory → Nat → Word
  | [], _ => unlistedWord
  | (k, v) :: rest, a => if k = a then v else Memory.read rest a

/-- Take an address off the list. -/
def Memory.erase : Memory → Nat → Memory
  | [], _ => []
  | (k, w) :: rest, a => if k = a then Memory.erase rest a else (k, w) :: Memory.erase rest a

/-- List a word at an address, in the address order. -/
def Memory.insert : Memory → Nat → Word → Memory
  | [], a, v => [(a, v)]
  | (k, w) :: rest, a, v =>
    if k < a then (k, w) :: Memory.insert rest a v
    else if k = a then (a, v) :: rest
    else (a, v) :: (k, w) :: rest

/-- Put a word at an address, keeping the canonical form: a word an unlisted address reads as is not listed. -/
def Memory.write (m : Memory) (a : Nat) (v : Word) : Memory :=
  if v = unlistedWord then Memory.erase m a else Memory.insert m a v

/-- The canonical form from address `lo` up. -/
def Memory.wfFrom : Nat → Memory → Bool
  | _, [] => true
  | lo, (k, v) :: rest => decide (lo ≤ k) && decide (k < 65536) && v != unlistedWord && Memory.wfFrom (k + 1) rest

/-- The canonical form: addresses strictly rising and inside the 65,536 words (R40), no entry as an unlisted address reads. -/
def Memory.wf (m : Memory) : Bool := Memory.wfFrom 0 m

/-- The word a cell holds: the model's read of one cell, with no poll. -/
def State.cell (s : State) (a : Word) : Word := Memory.read s.mem a.toNat

/-- `MemWrite(a, 1, v)` (R43): no side effect at any address. -/
def State.memWrite (s : State) (a v : Word) : State := { s with mem := Memory.write s.mem a.toNat v }

/-! ### The device port -/

/-- A byte other than 0x00, by its value less one. -/
def byteAbove (v : Fin 255) : Byte := BitVec.ofNat 8 (v.val + 1)

/-- One `read_byte` call under the oracle that `bursts` and `bytes` give: the answer and what is still to come; `none`
when the call is never answered. The script comes first; a pause of 0x00 ends a burst and the next one begins. -/
def Device.nextOf (bursts : Nat → Nat → Sys2Proof.Config.Burst) (bytes : Nat → Nat → Fin 255) (d : Device) :
    Option (Byte × Device) :=
  match d.script with
  | b :: rest => some (b, { d with script := rest })
  | [] =>
    match d.burst with
    | .zeroAfter 0 => some (0x00#8, { d with burst := bursts d.source (d.calls + 1), calls := d.calls + 1 })
    | .zeroAfter (n + 1) => some (byteAbove (bytes d.source d.calls), { d with burst := .zeroAfter n, calls := d.calls + 1 })
    | .silentAfter 0 => none
    | .silentAfter (n + 1) => some (byteAbove (bytes d.source d.calls), { d with burst := .silentAfter n, calls := d.calls + 1 })
    | .forever => some (byteAbove (bytes d.source d.calls), { d with calls := d.calls + 1 })

/-- The device's answer to one `read_byte` call and what it has still to answer; `none` when it never answers (R50,
R52): the OPEN oracle `DEV`. Past the script and the burst the answers are those of the device's `source`, and two
sources are unrelated (R12); that two devices with one source share them is a DESIGN CHOICE (log 6). -/
def Device.next (d : Device) : Option (Byte × Device) := Device.nextOf devBurst devByte d

/-- `DevRead()` (R50): `none` when the call is never answered. -/
def State.devRead (s : State) : Option (Byte × State) :=
  match Device.next s.dev with
  | some (b, d) => some (b, { s with dev := d })
  | none => none

/-- `DevWrite` of each byte of a list, in order (R51): appended to `out`. -/
def State.emit (s : State) (bytes : List Byte) : State := { s with out := s.out ++ bytes }

/-! ### The keyboard and the one-word read -/

/-- What a poll writes when the device answered `b` (R45): a byte 0x00 means that none is pending. -/
def State.keyboardWrite (s : State) (b : Byte) : State :=
  if b = 0x00#8 then s.memWrite kbsrAddr 0x0000#16
  else (s.memWrite kbsrAddr 0x8000#16).memWrite kbdrAddr (zext16 b)

/-- `KeyboardPoll()` (R45): `none` when the device never answers. -/
def State.keyboardPoll (s : State) : Option State :=
  match s.devRead with
  | some (b, s1) => some (s1.keyboardWrite b)
  | none => none

/-- `MemRead(a, 1)` (R42): a read at KBSR_ADDR polls first, whichever operation reads (R46); `none` when that poll
is never answered. -/
def State.memRead (s : State) (a : Word) : Option (Word × State) :=
  if a = kbsrAddr then
    match s.keyboardPoll with
    | some s1 => some (s1.cell a, s1)
    | none => none
  else some (s.cell a, s)

/-- Read one word, then go on with it; the step never completes when the device is silent (R52; log 7). -/
def State.readThen (s : State) (a : Word) (k : Word → State → Result) : Result :=
  match s.memRead a with
  | some (v, s1) => k v s1
  | none => .fault .deviceSilent

/-- Wait for one input byte, then go on with it (R50, the blocking context; R52). -/
def State.inputThen (s : State) (k : Byte → State → Result) : Result :=
  match s.devRead with
  | some (b, s1) => k b s1
  | none => .fault .deviceSilent

/-! ### Strings -/

/-- The string loop of PUTS and PUTSP (R182, R184): from address `a`, emit each word's bytes until a zero word. The
first argument bounds the words read; when it runs out the loop is taken never to end (log 8). -/
def stringLoop (bytes : Word → List Byte) : Nat → Word → State → Result
  | 0, _, _ => .fault .stringEndless
  | n + 1, a, s =>
    s.readThen a fun w s1 => if w = 0x0000#16 then .next s1 else stringLoop bytes n (a + 1#16) (s1.emit (bytes w))

/-- How many bytes other than 0x00 a burst is sure to end after; 0 for one that never ends. -/
def burstBytes : Sys2Proof.Config.Burst → Nat
  | .zeroAfter n => n
  | .silentAfter n => n
  | .forever => 0

/-- A bound on the words read that no string that ends exceeds. 65,536 words make a lap of memory with one poll in it.
After the script and the bytes of a burst that pauses, the next poll reads a zero word or is never answered; in a burst
that never ends, no cell turns zero any more, so a lap without a zero word repeats forever (log 8). -/
def stringBound (s : State) : Nat := 65536 * (s.dev.script.length + burstBytes s.dev.burst + 2)

/-! ### Raising a fault, entering a trap, fetching -/

/-- `raise Fault(reason)` (R201): the step ends, with the record of R202. During an instruction `pc` is its address
plus one (R24), so the address is `pc` minus one; nothing else of the state has changed since the fetch (R203). -/
def raiseFault (reason : FaultRecord → Fault) (ir : Word) (s : State) : Result :=
  .fault (reason { addr := s.pc - 1#16, ir := ir, state := s })

/-- Trap entry (R170, R206): the optional link `x[7] <- pc`, no flag and nothing else. Trap return is implicit (R207):
no routine writes `pc`. -/
def State.trapEntry (saves : Bool) (s : State) : State := s.setReg 7 (if saves then s.pc else s.reg 7)

/-- The fetch of R80: read the word at `pc` through `MemRead`, advance `pc` by one, go on. At 0xFFFF the policy
decides: `fault` raises PC_WRAP with `pc` still 0xFFFF and the word not decoded (R205), `wrap` goes on at 0x0000. -/
def State.fetchThen (policy : Sys2Proof.Config.PcWrapPolicy) (s : State) (k : Word → State → Result) : Result :=
  s.readThen s.pc fun ir s1 =>
    if s.pc = 0xFFFF#16 then
      match policy with
      | .fault => .fault (.pcWrap { addr := s.pc, ir := ir, state := s1 })
      | .wrap => k ir (s1.setPc 0x0000#16)
    else k ir (s1.setPc (s.pc + 1#16))

end Sys2Proof.Machine
end

