-- ==== Sys2Proof/Machine/Operands.lean ====
section
/-! DEFINITION. The operand forms (30_encoding.md R73, R74) and the addressing modes (42_memory_access.md R147). In all of
them `pc` is the post-fetch value (00_scope.md R11), and every sum is taken modulo 2^16. -/

namespace Sys2Proof.Machine

/-- `sext_N` (00_scope.md R8), used with N in 5, 6, 9, 11. -/
def sext {n : Nat} (f : BitVec n) : Word := f.signExtend 16

/-- The immediate operand of ADD and AND (R73). -/
def imm5Value (imm5 : BitVec 5) : Word := sext imm5

/-- PC-relative, `pc + sext_9(PCoffset9)`: BR, LD, LDI, LEA, ST, STI. -/
def State.pcRel9 (s : State) (off : BitVec 9) : Word := s.pc + sext off

/-- PC-relative, `pc + sext_11(PCoffset11)`: JSR. -/
def State.pcRel11 (s : State) (off : BitVec 11) : Word := s.pc + sext off

/-- Base plus offset, `x[BaseR] + sext_6(offset6)`: LDR, STR. -/
def State.baseOff6 (s : State) (base : Reg) (off : BitVec 6) : Word := s.reg base + sext off

/-- Indirect, `MemRead(pc + sext_9(PCoffset9), 1)`: the pointer read of LDI and STI, which polls at KBSR_ADDR (R46). -/
def State.indirectThen (s : State) (off : BitVec 9) (k : Word → State → Result) : Result :=
  s.readThen (s.pcRel9 off) k

end Sys2Proof.Machine
end

