-- ==== Sys2Proof/Machine/Control.lean ====
section
/-! DEFINITION. Control transfer BR, JMP, RET, JSR, JSRR (40_control.md). -/

namespace Sys2Proof.Machine

/-- R100. -/
def execBr (nzp : BitVec 3) (off : BitVec 9) (s : State) : Result :=
  .next (s.setPc (if branchTaken nzp s.cond then s.pcRel9 off else s.pc))

/-- R101. -/
def execJmp (base : Reg) (s : State) : Result := .next (s.setPc (s.reg base))

/-- R90, R101: JMP through the link register. -/
def execRet (s : State) : Result := .next (s.setPc (s.reg 7))

/-- R102: the link, then the jump; no flag (D19; log 14). -/
def execJsr (off : BitVec 11) (s : State) : Result := .next ((s.setReg 7 s.pc).setPc (s.pcRel11 off))

/-- R103: the link first, then the base register is read (D31; log 14); no flag (D19). -/
def execJsrr (base : Reg) (s : State) : Result :=
  let linked := s.setReg 7 s.pc
  .next (linked.setPc (linked.reg base))

end Sys2Proof.Machine
end

