-- ==== Sys2Proof/Machine/MemoryAccess.lean ====
section
/-! DEFINITION. Loads, stores and address computation (42_memory_access.md). -/

namespace Sys2Proof.Machine

/-- R140. -/
def execLd (dr : Reg) (off : BitVec 9) (s : State) : Result :=
  s.readThen (s.pcRel9 off) fun v s1 => .next (s1.setRegCc dr v)

/-- R141: both reads poll at KBSR_ADDR, the pointer's first. -/
def execLdi (dr : Reg) (off : BitVec 9) (s : State) : Result :=
  s.indirectThen off fun addr s1 => s1.readThen addr fun v s2 => .next (s2.setRegCc dr v)

/-- R142. -/
def execLdr (dr base : Reg) (off : BitVec 6) (s : State) : Result :=
  s.readThen (s.baseOff6 base off) fun v s1 => .next (s1.setRegCc dr v)

/-- R143: no memory access, and the flags are updated. -/
def execLea (dr : Reg) (off : BitVec 9) (s : State) : Result := .next (s.setRegCc dr (s.pcRel9 off))

/-- R144: the source is R0, not the encoded field (C8, D30; log 14). -/
def execSt (off : BitVec 9) (s : State) : Result := .next (s.memWrite (s.pcRel9 off) (s.reg 0))

/-- R145: the source is the field register. -/
def execSti (sr : Reg) (off : BitVec 9) (s : State) : Result :=
  s.indirectThen off fun addr s1 => .next (s1.memWrite addr (s1.reg sr))

/-- R146. -/
def execStr (sr base : Reg) (off : BitVec 6) (s : State) : Result := .next (s.memWrite (s.baseOff6 base off) (s.reg sr))

end Sys2Proof.Machine
end

