-- ==== Sys2Proof/Machine/Operate.lean ====
section
/-! DEFINITION. The operate instructions ADD, AND, NOT (41_operate.md). -/

namespace Sys2Proof.Machine

/-- R120. -/
def execAddReg (dr sr1 sr2 : Reg) (s : State) : Result := .next (s.setRegCc dr (s.reg sr1 + s.reg sr2))

/-- R121. -/
def execAddImm (dr sr1 : Reg) (imm5 : BitVec 5) (s : State) : Result :=
  .next (s.setRegCc dr (s.reg sr1 + imm5Value imm5))

/-- R122. -/
def execAndReg (dr sr1 sr2 : Reg) (s : State) : Result := .next (s.setRegCc dr (s.reg sr1 &&& s.reg sr2))

/-- R123. -/
def execAndImm (dr sr1 : Reg) (imm5 : BitVec 5) (s : State) : Result :=
  .next (s.setRegCc dr (s.reg sr1 &&& imm5Value imm5))

/-- R124. -/
def execNot (dr sr1 : Reg) (s : State) : Result := .next (s.setRegCc dr (~~~ s.reg sr1))

end Sys2Proof.Machine
end

