-- ==== Sys2Proof/Syntax.lean ====
section
/-! DEFINITION. The instruction set as syntax: one constructor per row of spec/opcode_table.json (30_encoding.md R71, R72).

The bits this hardware ignores (R75) are kept as fields whose names begin with `spare`, so that an instruction and
its word determine each other (log 12); the machine never reads them but to record the word of a faulting instruction. -/

namespace Sys2Proof

inductive Instr where
  /-- BR, R100: `0000 NZPf ffff ffff`. -/
  | br (nzp : BitVec 3) (off : BitVec 9)
  /-- ADD, register form, R120: `0001 ddds ss0x xttt`. -/
  | addReg (dr sr1 sr2 : Reg) (spare : BitVec 2)
  /-- ADD, immediate form, R121: `0001 ddds ss1i iiii`. -/
  | addImm (dr sr1 : Reg) (imm5 : BitVec 5)
  /-- LD, R140: `0010 dddf ffff ffff`. -/
  | ld (dr : Reg) (off : BitVec 9)
  /-- ST, R144: `0011 xxxf ffff ffff`; the source is R0, whatever bits 11:9 hold. -/
  | st (spare : BitVec 3) (off : BitVec 9)
  /-- JSR, R102: `0100 1lll llll llll`. -/
  | jsr (off : BitVec 11)
  /-- JSRR, R103: `0100 0xxb bbxx xxxx`. -/
  | jsrr (base : Reg) (spareHi : BitVec 2) (spareLo : BitVec 6)
  /-- AND, register form, R122: `0101 ddds ss0x xttt`. -/
  | andReg (dr sr1 sr2 : Reg) (spare : BitVec 2)
  /-- AND, immediate form, R123: `0101 ddds ss1i iiii`. -/
  | andImm (dr sr1 : Reg) (imm5 : BitVec 5)
  /-- LDR, R142: `0110 dddb bboo oooo`. -/
  | ldr (dr base : Reg) (off : BitVec 6)
  /-- STR, R146: `0111 sssb bboo oooo`. -/
  | str (sr base : Reg) (off : BitVec 6)
  /-- RTI, R172: `1000 xxxx xxxx xxxx`. -/
  | rti (spare : BitVec 12)
  /-- NOT, R124: `1001 ddds ssxx xxxx`. -/
  | notReg (dr sr1 : Reg) (spare : BitVec 6)
  /-- LDI, R141: `1010 dddf ffff ffff`. -/
  | ldi (dr : Reg) (off : BitVec 9)
  /-- STI, R145: `1011 sssf ffff ffff`. -/
  | sti (sr : Reg) (off : BitVec 9)
  /-- JMP, R101: `1100 xxxb bbxx xxxx`. With base R7 the word is RET's. -/
  | jmp (base : Reg) (spareHi : BitVec 3) (spareLo : BitVec 6)
  /-- The reserved opcode, R173: `1101 xxxx xxxx xxxx`. -/
  | reserved (spare : BitVec 12)
  /-- LEA, R143: `1110 dddf ffff ffff`. -/
  | lea (dr : Reg) (off : BitVec 9)
  /-- TRAP, R170: `1111 xxxx vvvv vvvv`. With one of the six vectors the word is that routine's. -/
  | trap (vector : Byte) (spare : BitVec 4)
  /-- RET, R90: JMP with BaseR = 7, `1100 xxx1 11xx xxxx`. -/
  | ret (spareHi : BitVec 3) (spareLo : BitVec 6)
  /-- GETC, R91 and R180: TRAP x20. -/
  | getc (spare : BitVec 4)
  /-- OUT, R91 and R181: TRAP x21. -/
  | out (spare : BitVec 4)
  /-- PUTS, R91 and R182: TRAP x22. -/
  | puts (spare : BitVec 4)
  /-- IN, R91 and R183: TRAP x23. -/
  | inp (spare : BitVec 4)
  /-- PUTSP, R91 and R184: TRAP x24. -/
  | putsp (spare : BitVec 4)
  /-- HALT, R91 and R185: TRAP x25. -/
  | halt (spare : BitVec 4)
  deriving DecidableEq, Repr

end Sys2Proof
end

