-- ==== Sys2Proof/WellFormed.lean ====
section
/-! DEFINITION. Which instructions are the reading of some word. The field widths are in the types; what is left is
that a word which has a row of its own (RET, the six trap names) is read as that row (log 19). -/

namespace Sys2Proof

/-- The six vectors a TRAP may name (30_encoding.md R78, D6; log 11). -/
def trapVectors : List Byte := [0x20#8, 0x21#8, 0x22#8, 0x23#8, 0x24#8, 0x25#8]

/-- An instruction is well formed when its word decodes to it: JMP names a base other than R7 (else it is RET, R90)
and TRAP names none of the six vectors (else it is GETC to HALT, R91). The machine gives the ill-formed terms
the same meaning as the row they are another name of. -/
def Instr.wellFormed : Instr → Bool
  | .jmp base _ _ => base != 7
  | .trap v _ => !trapVectors.contains v
  | .br _ _ | .addReg _ _ _ _ | .addImm _ _ _ | .ld _ _ | .st _ _ | .jsr _ | .jsrr _ _ _ | .andReg _ _ _ _
  | .andImm _ _ _ | .ldr _ _ _ | .str _ _ _ | .rti _ | .notReg _ _ _ | .ldi _ _ | .sti _ _ | .reserved _
  | .lea _ _ | .ret _ _ | .getc _ | .out _ | .puts _ | .inp _ | .putsp _ | .halt _ => true

end Sys2Proof
end

