-- ==== Sys2Proof/Decode.lean ====
section
/-! DEFINITION. The decoder (30_encoding.md R70 to R79), the encoder, and the opcode table as rows of mask and match. -/

namespace Sys2Proof

/-! ### Fields -/

/-- The register a 3-bit field names (R74). -/
def regOf (b : BitVec 3) : Reg := ⟨b.toNat, b.isLt⟩

/-- The 3-bit field that names a register. -/
def regBits (r : Reg) : BitVec 3 := BitVec.ofFin r

/-- The register field of `ir` whose least significant bit is bit `lo`: DR or SR at 9, SR1 or BaseR at 6, SR2 at 0 (R71). -/
def regField (ir : Word) (lo : Nat) : Reg := regOf (ir.extractLsb' lo 3)

/-! ### The decoder -/

/-- The six built-in routines (R78). -/
inductive TrapTag where
  | getc
  | out
  | puts
  | inp
  | putsp
  | halt
  deriving DecidableEq, Repr

/-- `DecodeTrap` (R78): `none` is the fallback BADTRAP. -/
def decodeTrap (v : Byte) : Option TrapTag :=
  if v = 0x20#8 then some .getc
  else if v = 0x21#8 then some .out
  else if v = 0x22#8 then some .puts
  else if v = 0x23#8 then some .inp
  else if v = 0x24#8 then some .putsp
  else if v = 0x25#8 then some .halt
  else none

/-- The TRAP words: the routine's own row where the vector has one (R91), else TRAP itself. -/
def decodeTrapWord (ir : Word) : Instr :=
  let v := ir.extractLsb' 0 8
  let spare := ir.extractLsb' 8 4
  match decodeTrap v with
  | some .getc => .getc spare
  | some .out => .out spare
  | some .puts => .puts spare
  | some .inp => .inp spare
  | some .putsp => .putsp spare
  | some .halt => .halt spare
  | none => .trap v spare

/-- The JMP words: RET's row where BaseR is R7 (R90), else JMP. -/
def decodeJmpWord (ir : Word) : Instr :=
  if regField ir 6 = 7 then .ret (ir.extractLsb' 9 3) (ir.extractLsb' 0 6)
  else .jmp (regField ir 6) (ir.extractLsb' 9 3) (ir.extractLsb' 0 6)

/-- `Decode` (R77): a total pure function of the word alone (R79). The sixteen arms are the opcodes 0x0 to 0xF
of R72, bit 15 first. -/
def decode (ir : Word) : Instr :=
  match ir.getLsbD 15, ir.getLsbD 14, ir.getLsbD 13, ir.getLsbD 12 with
  | false, false, false, false => .br (ir.extractLsb' 9 3) (ir.extractLsb' 0 9)
  | false, false, false, true =>
    if ir.getLsbD 5 then .addImm (regField ir 9) (regField ir 6) (ir.extractLsb' 0 5)
    else .addReg (regField ir 9) (regField ir 6) (regField ir 0) (ir.extractLsb' 3 2)
  | false, false, true, false => .ld (regField ir 9) (ir.extractLsb' 0 9)
  | false, false, true, true => .st (ir.extractLsb' 9 3) (ir.extractLsb' 0 9)
  | false, true, false, false =>
    if ir.getLsbD 11 then .jsr (ir.extractLsb' 0 11)
    else .jsrr (regField ir 6) (ir.extractLsb' 9 2) (ir.extractLsb' 0 6)
  | false, true, false, true =>
    if ir.getLsbD 5 then .andImm (regField ir 9) (regField ir 6) (ir.extractLsb' 0 5)
    else .andReg (regField ir 9) (regField ir 6) (regField ir 0) (ir.extractLsb' 3 2)
  | false, true, true, false => .ldr (regField ir 9) (regField ir 6) (ir.extractLsb' 0 6)
  | false, true, true, true => .str (regField ir 9) (regField ir 6) (ir.extractLsb' 0 6)
  | true, false, false, false => .rti (ir.extractLsb' 0 12)
  | true, false, false, true => .notReg (regField ir 9) (regField ir 6) (ir.extractLsb' 0 6)
  | true, false, true, false => .ldi (regField ir 9) (ir.extractLsb' 0 9)
  | true, false, true, true => .sti (regField ir 9) (ir.extractLsb' 0 9)
  | true, true, false, false => decodeJmpWord ir
  | true, true, false, true => .reserved (ir.extractLsb' 0 12)
  | true, true, true, false => .lea (regField ir 9) (ir.extractLsb' 0 9)
  | true, true, true, true => decodeTrapWord ir

/-- Why bytes are not an instruction. Every 16-bit word is one (R77), so only the length can fail. -/
inductive DecodeReject where
  /-- Fewer than the two bytes of one instruction word (R70). -/
  | truncated
  deriving DecidableEq, Repr

/-- One instruction from the front of an image's bytes, big-endian (R55 (a)), and the bytes after it. -/
def decodeBytes : List Byte → Except DecodeReject (Instr × List Byte)
  | hi :: lo :: rest => .ok (decode (hi ++ lo), rest)
  | [_] | [] => .error .truncated

/-- The host's question: the instruction read from a table word `w` of `nbits` bits. An instruction is one 16-bit word. -/
def decodeTableWord (nbits w : Nat) : Option Instr :=
  if nbits ≤ 16 ∧ w < 2 ^ 16 then
    match decodeBytes [BitVec.ofNat 8 (w / 256), BitVec.ofNat 8 w] with
    | .ok (i, _) => some i
    | .error _ => none
  else none

/-! ### The encoder -/

/-- A row's fields laid side by side, bit 15 on the left, are one word when their widths add up to 16. -/
def word {n : Nat} (fields : BitVec n) (h : n = 16 := by rfl) : Word := fields.cast h

/-- The word of an instruction, from the patterns of R71. -/
def encode : Instr → Word
  | .br nzp off => word (0b0000#4 ++ nzp ++ off)
  | .addReg dr sr1 sr2 spare => word (0b0001#4 ++ regBits dr ++ regBits sr1 ++ 0b0#1 ++ spare ++ regBits sr2)
  | .addImm dr sr1 imm5 => word (0b0001#4 ++ regBits dr ++ regBits sr1 ++ 0b1#1 ++ imm5)
  | .ld dr off => word (0b0010#4 ++ regBits dr ++ off)
  | .st spare off => word (0b0011#4 ++ spare ++ off)
  | .jsr off => word (0b0100#4 ++ 0b1#1 ++ off)
  | .jsrr base spareHi spareLo => word (0b0100#4 ++ 0b0#1 ++ spareHi ++ regBits base ++ spareLo)
  | .andReg dr sr1 sr2 spare => word (0b0101#4 ++ regBits dr ++ regBits sr1 ++ 0b0#1 ++ spare ++ regBits sr2)
  | .andImm dr sr1 imm5 => word (0b0101#4 ++ regBits dr ++ regBits sr1 ++ 0b1#1 ++ imm5)
  | .ldr dr base off => word (0b0110#4 ++ regBits dr ++ regBits base ++ off)
  | .str sr base off => word (0b0111#4 ++ regBits sr ++ regBits base ++ off)
  | .rti spare => word (0b1000#4 ++ spare)
  | .notReg dr sr1 spare => word (0b1001#4 ++ regBits dr ++ regBits sr1 ++ spare)
  | .ldi dr off => word (0b1010#4 ++ regBits dr ++ off)
  | .sti sr off => word (0b1011#4 ++ regBits sr ++ off)
  | .jmp base spareHi spareLo => word (0b1100#4 ++ spareHi ++ regBits base ++ spareLo)
  | .reserved spare => word (0b1101#4 ++ spare)
  | .lea dr off => word (0b1110#4 ++ regBits dr ++ off)
  | .trap v spare => word (0b1111#4 ++ spare ++ v)
  | .ret spareHi spareLo => word (0b1100#4 ++ spareHi ++ 0b111#3 ++ spareLo)
  | .getc spare => word (0b1111#4 ++ spare ++ 0x20#8)
  | .out spare => word (0b1111#4 ++ spare ++ 0x21#8)
  | .puts spare => word (0b1111#4 ++ spare ++ 0x22#8)
  | .inp spare => word (0b1111#4 ++ spare ++ 0x23#8)
  | .putsp spare => word (0b1111#4 ++ spare ++ 0x24#8)
  | .halt spare => word (0b1111#4 ++ spare ++ 0x25#8)

/-! ### The opcode table -/

/-- One row of the table of R71: a word belongs to it when `word AND mask = pattern` (R72). -/
structure Row where
  mask : Word
  pattern : Word
  deriving DecidableEq, Repr

/-- Does the word belong to the row? -/
def Row.has (r : Row) (w : Word) : Bool := w &&& r.mask == r.pattern

/-- The rows of spec/opcode_table.json whose `alias_of` is null, in the table's order. -/
def baseRows : List Row :=
  [⟨0xF000#16, 0x0000#16⟩, ⟨0xF020#16, 0x1000#16⟩, ⟨0xF020#16, 0x1020#16⟩, ⟨0xF000#16, 0x2000#16⟩, ⟨0xF000#16, 0x3000#16⟩, ⟨0xF800#16, 0x4800#16⟩,
   ⟨0xF800#16, 0x4000#16⟩, ⟨0xF020#16, 0x5000#16⟩, ⟨0xF020#16, 0x5020#16⟩, ⟨0xF000#16, 0x6000#16⟩, ⟨0xF000#16, 0x7000#16⟩, ⟨0xF000#16, 0x8000#16⟩,
   ⟨0xF000#16, 0x9000#16⟩, ⟨0xF000#16, 0xA000#16⟩, ⟨0xF000#16, 0xB000#16⟩, ⟨0xF000#16, 0xC000#16⟩, ⟨0xF000#16, 0xD000#16⟩, ⟨0xF000#16, 0xE000#16⟩,
   ⟨0xF000#16, 0xF000#16⟩]

/-- The row of spec/opcode_table.json an instruction's constructor stands for. -/
def Instr.row : Instr → Row
  | .br _ _ => ⟨0xF000#16, 0x0000#16⟩
  | .addReg _ _ _ _ => ⟨0xF020#16, 0x1000#16⟩
  | .addImm _ _ _ => ⟨0xF020#16, 0x1020#16⟩
  | .ld _ _ => ⟨0xF000#16, 0x2000#16⟩
  | .st _ _ => ⟨0xF000#16, 0x3000#16⟩
  | .jsr _ => ⟨0xF800#16, 0x4800#16⟩
  | .jsrr _ _ _ => ⟨0xF800#16, 0x4000#16⟩
  | .andReg _ _ _ _ => ⟨0xF020#16, 0x5000#16⟩
  | .andImm _ _ _ => ⟨0xF020#16, 0x5020#16⟩
  | .ldr _ _ _ => ⟨0xF000#16, 0x6000#16⟩
  | .str _ _ _ => ⟨0xF000#16, 0x7000#16⟩
  | .rti _ => ⟨0xF000#16, 0x8000#16⟩
  | .notReg _ _ _ => ⟨0xF000#16, 0x9000#16⟩
  | .ldi _ _ => ⟨0xF000#16, 0xA000#16⟩
  | .sti _ _ => ⟨0xF000#16, 0xB000#16⟩
  | .jmp _ _ _ => ⟨0xF000#16, 0xC000#16⟩
  | .reserved _ => ⟨0xF000#16, 0xD000#16⟩
  | .lea _ _ => ⟨0xF000#16, 0xE000#16⟩
  | .trap _ _ => ⟨0xF000#16, 0xF000#16⟩
  | .ret _ _ => ⟨0xF1C0#16, 0xC1C0#16⟩
  | .getc _ => ⟨0xF0FF#16, 0xF020#16⟩
  | .out _ => ⟨0xF0FF#16, 0xF021#16⟩
  | .puts _ => ⟨0xF0FF#16, 0xF022#16⟩
  | .inp _ => ⟨0xF0FF#16, 0xF023#16⟩
  | .putsp _ => ⟨0xF0FF#16, 0xF024#16⟩
  | .halt _ => ⟨0xF0FF#16, 0xF025#16⟩

end Sys2Proof
end

