-- ==== Sys2Proof/Machine/TrapRoutines.lean ====
section
/-! DEFINITION. The six built-in routines (44_trap_routines.md), and the rows that name them (30_encoding.md R91). The
routines take the OPEN parameters as arguments. -/

namespace Sys2Proof.Machine

/-! ### The routines, after trap entry -/

/-- R180: one input byte to R0, zero-extended (D20; log 15); no flag. -/
def trapGetc (s : State) : Result := s.inputThen fun b s1 => .next (s1.setReg 0 (zext16 b))

/-- R181. -/
def trapOut (s : State) : Result := .next (s.emit [lo8 (s.reg 0)])

/-- The byte PUTS emits for a non-zero word (R182; D24, log 16). -/
def putsBytes (w : Word) : List Byte := [lo8 w]

/-- R182. -/
def trapPuts (s : State) : Result := stringLoop putsBytes (stringBound s) (s.reg 0) s

/-- R183: the prompt, one input byte, the echo, R0 and the flags. -/
def trapIn (prompt : List Byte) (echo : Bool) (s : State) : Result :=
  (s.emit prompt).inputThen fun b s1 => .next ((s1.emit (if echo then [b] else [])).setRegCc 0 (zext16 b))

/-- The bytes PUTSP emits for a non-zero word (R184): the low byte, then the high byte unless it is zero. -/
def putspBytes (w : Word) : List Byte := if hi8 w = 0x00#8 then [lo8 w] else [lo8 w, hi8 w]

/-- R184. -/
def trapPutsp (s : State) : Result := stringLoop putspBytes (stringBound s) (s.reg 0) s

/-- R185. -/
def trapHalt (output : List Byte) (s : State) : Result := .next (s.emit output).setHalted

/-! ### The rows GETC to HALT -/

/-- R91, R170, R180. -/
def execGetc (s : State) : Result := trapGetc (s.trapEntry trapSavesR7)

/-- R91, R170, R181. -/
def execOut (s : State) : Result := trapOut (s.trapEntry trapSavesR7)

/-- R91, R170, R182. -/
def execPuts (s : State) : Result := trapPuts (s.trapEntry trapSavesR7)

/-- R91, R170, R183. -/
def execIn (s : State) : Result := trapIn inPrompt inEcho (s.trapEntry trapSavesR7)

/-- R91, R170, R184. -/
def execPutsp (s : State) : Result := trapPutsp (s.trapEntry trapSavesR7)

/-- R91, R170, R185. -/
def execHalt (s : State) : Result := trapHalt haltOutput (s.trapEntry trapSavesR7)

end Sys2Proof.Machine
end

