-- ==== Sys2Proof/Machine/System.lean ====
section
/-! DEFINITION. TRAP, RTI and the reserved opcode (43_system.md). -/

namespace Sys2Proof.Machine

/-- R170: the vector is checked before anything else (R205), so BAD_TRAP changes no register; then the optional link,
then the routine. The word of the instruction is recorded by the fault only (R202). -/
def execTrap (vector : Byte) (spare : BitVec 4) (s : State) : Result :=
  match decodeTrap vector with
  | none => raiseFault (.badTrap vector) (encode (.trap vector spare)) s
  | some .getc => trapGetc (s.trapEntry trapSavesR7)
  | some .out => trapOut (s.trapEntry trapSavesR7)
  | some .puts => trapPuts (s.trapEntry trapSavesR7)
  | some .inp => trapIn inPrompt inEcho (s.trapEntry trapSavesR7)
  | some .putsp => trapPutsp (s.trapEntry trapSavesR7)
  | some .halt => trapHalt haltOutput (s.trapEntry trapSavesR7)

/-- R172: always the fatal fault RTI. -/
def execRti (spare : BitVec 12) (s : State) : Result := raiseFault .rti (encode (.rti spare)) s

/-- R173: always the fatal fault RESERVED. -/
def execReserved (spare : BitVec 12) (s : State) : Result := raiseFault .reserved (encode (.reserved spare)) s

end Sys2Proof.Machine
end

