-- ==== Sys2Proof/Machine/Dispatch.lean ====
section
/-! DEFINITION. `Execute` (30_encoding.md R81): one arm per instruction. -/

namespace Sys2Proof.Machine

def exec (i : Instr) (s : State) : Host.Outcome State Fault Refusal :=
  match i with
  | .br nzp off => Sys2Proof.Machine.execBr nzp off s
  | .addReg dr sr1 sr2 _ => Sys2Proof.Machine.execAddReg dr sr1 sr2 s
  | .addImm dr sr1 imm5 => Sys2Proof.Machine.execAddImm dr sr1 imm5 s
  | .ld dr off => Sys2Proof.Machine.execLd dr off s
  | .st _ off => Sys2Proof.Machine.execSt off s
  | .jsr off => Sys2Proof.Machine.execJsr off s
  | .jsrr base _ _ => Sys2Proof.Machine.execJsrr base s
  | .andReg dr sr1 sr2 _ => Sys2Proof.Machine.execAndReg dr sr1 sr2 s
  | .andImm dr sr1 imm5 => Sys2Proof.Machine.execAndImm dr sr1 imm5 s
  | .ldr dr base off => Sys2Proof.Machine.execLdr dr base off s
  | .str sr base off => Sys2Proof.Machine.execStr sr base off s
  | .rti spare => Sys2Proof.Machine.execRti spare s
  | .notReg dr sr1 _ => Sys2Proof.Machine.execNot dr sr1 s
  | .ldi dr off => Sys2Proof.Machine.execLdi dr off s
  | .sti sr off => Sys2Proof.Machine.execSti sr off s
  | .jmp base _ _ => Sys2Proof.Machine.execJmp base s
  | .reserved spare => Sys2Proof.Machine.execReserved spare s
  | .lea dr off => Sys2Proof.Machine.execLea dr off s
  | .trap vector spare => Sys2Proof.Machine.execTrap vector spare s
  | .ret _ _ => Sys2Proof.Machine.execRet s
  | .getc _ => Sys2Proof.Machine.execGetc s
  | .out _ => Sys2Proof.Machine.execOut s
  | .puts _ => Sys2Proof.Machine.execPuts s
  | .inp _ => Sys2Proof.Machine.execIn s
  | .putsp _ => Sys2Proof.Machine.execPutsp s
  | .halt _ => Sys2Proof.Machine.execHalt s

end Sys2Proof.Machine
end

