-- ==== Sys2Proof/Machine/Step.lean ====
section
/-! DEFINITION. One step (30_encoding.md R80 to R82), and where the next instruction stands. -/

namespace Sys2Proof.Machine

/-- `Step()` (R80): fetch, decode, execute. Defined from Running only (R30, R242; log 17). -/
def step (s : State) : Host.Outcome State Fault Refusal :=
  match s.run with
  | .halted => .refused .stepWhenHalted
  | .running => s.fetchThen pcWrapPolicy fun ir s1 => exec (decode ir) s1

/-- The state with the 16-bit word `w` where the next step fetches: the cell at `pc`, of a Running instance (log 5).
It stands for the host's `load` of that one word. (A cell at KBSR_ADDR is overwritten by the fetch's own poll, R46,
and a fetch from 0xFFFF faults, R80: at those two addresses no stored word can run.) -/
def State.withFetchWord (s : State) (_nbits w : Nat) : State :=
  { s.memWrite s.pc (BitVec.ofNat 16 w) with run := .running }

end Sys2Proof.Machine
end

