-- ==== Sys2Proof/Machine/HostInterface.lean ====
section
/-! DEFINITION. The host's operations `load`, `step` and `run` (70_reset_and_hazards.md R230 to R244). -/

namespace Sys2Proof.Machine

/-! ### Loading an image -/

/-- What the OPEN parameters and the environment give a fresh instance (R36): `INIT_GPR`, `INIT_COND`, `INIT_MEM`, and
the device's answers. -/
structure InitValues where
  gpr : Vector Word 8
  cond : BitVec 3
  mem : Memory
  dev : Device
  deriving DecidableEq, Repr

/-- The big-endian words of a byte list, a lone last byte left out (R230). -/
def wordsBE : List Byte → List Word
  | hi :: lo :: rest => wordBE hi lo :: wordsBE rest
  | [_] | [] => []

/-- The image's first word, its origin (R230); zero of an image that has none, which is never accepted. -/
def imageOrigin (image : List Byte) : Word := (wordsBE image).headD 0x0000#16

/-- The image's payload words (R230). -/
def imagePayload (image : List Byte) : List Word := (wordsBE image).tail

/-- `ImageAccepted` (R231). -/
def imageAccepted (image : List Byte) : Bool :=
  decide (2 ≤ image.length) && decide (image.length % 2 = 0) &&
    decide ((imageOrigin image).toNat + (image.length - 2) / 2 ≤ 0x10000)

/-- Store words at consecutive addresses from `a` up. -/
def Memory.writeWords : Memory → Nat → List Word → Memory
  | m, _, [] => m
  | m, a, w :: rest => Memory.writeWords (Memory.write m a w) (a + 1) rest

/-- `load(image_bytes)` (R230, R232): the initial state of a fresh instance, or `none` for an image that is refused
(R231, D21; log 20). It makes no device call, even over KBSR_ADDR (D8). -/
def load (init : InitValues) (image : List Byte) : Option State :=
  if imageAccepted image then
    some { x := init.gpr, pc := imageOrigin image, cond := init.cond,
           mem := Memory.writeWords init.mem (imageOrigin image).toNat (imagePayload image),
           run := .running, out := [], dev := init.dev }
  else none

/-! ### Running -/

/-- The numeric code of a fatal fault (60_exceptions.md R200, D32); a step that never completes has none. -/
def Fault.code : Fault → Option Nat
  | .rti _ => some 1
  | .reserved _ => some 2
  | .badTrap _ _ => some 3
  | .pcWrap _ => some 4
  | .deviceSilent => none
  | .stringEndless => none

/-- What the host sees of a step: one of the three outcomes of R81 and R240, or no outcome, because the step never
returns (`stuck`, R241; logs 7 and 8) or because none is defined (`refused`, R242; log 17). -/
inductive StepOutcome where
  | next (s : State)
  | halt (s : State)
  | fault (r : Fault)
  | stuck (r : Fault)
  | refused (r : Refusal)
  deriving DecidableEq, Repr

/-- `step()` as the host sees it (R241): `Halt` and `Fault` are distinct outcomes (R240). -/
def hostStep (s : State) : StepOutcome :=
  match step s with
  | .next t =>
    match t.run with
    | .running => .next t
    | .halted => .halt t
  | .fault r =>
    match r.code with
    | some _ => .fault r
    | none => .stuck r
  | .refused r => .refused r

/-- Where `run()` stands after a number of steps. -/
inductive RunOutcome where
  /-- `run()` returned: the step was HALT (R243). -/
  | halted (s : State)
  /-- `run()` returned on a fatal fault (R243). -/
  | stopped (r : Fault)
  /-- `run()` never returns: it is in a step that never completes (R243; logs 7 and 8). No end of the run (R244). -/
  | stuck (r : Fault)
  /-- `run()` was called on an instance that is Halted (R242). -/
  | refused (r : Refusal)
  /-- No end yet. -/
  | unfinished (s : State)
  deriving DecidableEq, Repr

/-- `run()` for at most `n` steps (R243): `step()` until a step returns `Halt` or `Fault`. A run that no `n` ends has no
end (R244). -/
def runFor : Nat → State → RunOutcome
  | 0, s => .unfinished s
  | n + 1, s =>
    match hostStep s with
    | .next t => runFor n t
    | .halt t => .halted t
    | .fault r => .stopped r
    | .stuck r => .stuck r
    | .refused r => .refused r

end Sys2Proof.Machine
end

