-- ==== Sys2Proof/Safety.lean ====
section
/-! DEFINITION. The terms the claims are stated in: the spec's read as a relation, what the flags say of a value, what an
instruction leaves unchanged, the string run of the string routines, and what counts as a safe state. -/

namespace Sys2Proof.Machine

/-! ### Reading -/

/-- `Reads s a v s1`: in state `s`, `MemRead(a, 1)` answers `v` and leaves `s1` (20_memory.md R42, R45, R47). One rule for
a cell without side effect, two for the keyboard status cell: the poll received a byte, or it received 0x00. There is
no rule for a poll that is never answered (R52). -/
inductive Reads (s : State) : Word → Word → State → Prop where
  | plain (a : Word) (h : a ≠ kbsrAddr) : Reads s a (s.cell a) s
  | ready (b : Byte) (d : Device) (h : Device.next s.dev = some (b, d)) (hb : b ≠ 0x00#8) :
      Reads s kbsrAddr 0x8000#16
        { s with dev := d, mem := Memory.write (Memory.write s.mem kbsrAddr.toNat 0x8000#16) kbdrAddr.toNat (zext16 b) }
  | idle (d : Device) (h : Device.next s.dev = some (0x00#8, d)) :
      Reads s kbsrAddr 0x0000#16 { s with dev := d, mem := Memory.write s.mem kbsrAddr.toNat 0x0000#16 }

/-- A string read of PUTS or PUTSP from address `a` that ends (44_trap_routines.md R182, R184): each word is read through
`MemRead`, a zero word ends it, any other word emits its bytes and moves on, modulo 2^16. -/
inductive StringRun (bytes : Word → List Byte) : Word → State → State → Prop where
  | stop {a : Word} {s s1 : State} (h : Reads s a 0x0000#16 s1) : StringRun bytes a s s1
  | go {a w : Word} {s s1 t : State} (h : Reads s a w s1) (hw : w ≠ 0x0000#16)
      (rest : StringRun bytes (a + 1#16) (s1.emit (bytes w)) t) : StringRun bytes a s t

/-- A string read from address `a` that comes to a poll the device never answers (R46, R52, R182, R184): at once, or
after words that are not zero. -/
inductive StringSilent (bytes : Word → List Byte) : Word → State → Prop where
  | here {s : State} (h : Device.next s.dev = none) : StringSilent bytes kbsrAddr s
  | go {a w : Word} {s s1 : State} (h : Reads s a w s1) (hw : w ≠ 0x0000#16)
      (rest : StringSilent bytes (a + 1#16) (s1.emit (bytes w))) : StringSilent bytes a s

/-- The bytes PUTS emits for a non-zero word (R182): its low byte. -/
def lowByte (w : Word) : List Byte := [w.setWidth 8]

/-- The bytes PUTSP emits for a non-zero word (R184): its low byte, then its high byte unless that is zero. -/
def bothBytes (w : Word) : List Byte :=
  if w.toNat < 256 then [w.setWidth 8] else [w.setWidth 8, (w >>> 8).setWidth 8]

/-! ### Flags -/

/-- `cond` says of the written value what 10_state.md R27 says: Z for zero, N for bit 15 set, else P. -/
def FlagsOf (v : Word) (cond : BitVec 3) : Prop :=
  (v.toNat = 0 → cond = 0b010#3) ∧ (32768 ≤ v.toNat → cond = 0b100#3) ∧
    (0 < v.toNat → v.toNat < 32768 → cond = 0b001#3)

/-- Exactly one of N, Z, P is set (R29). -/
def OneFlag (cond : BitVec 3) : Prop := cond = 0b100#3 ∨ cond = 0b010#3 ∨ cond = 0b001#3

/-! ### Frames -/

/-- Every general register but those named is unchanged. -/
def SameRegsBut (rs : List Reg) (s t : State) : Prop := ∀ r, r ∉ rs → t.reg r = s.reg r

/-- Every memory cell but those named reads as before. -/
def SameMemBut (as : List Word) (s t : State) : Prop := ∀ a, a ∉ as → t.cell a = s.cell a

/-- The device port is untouched: nothing emitted, no answer taken. -/
def SamePort (s t : State) : Prop := t.out = s.out ∧ t.dev = s.dev

/-- What TRAP does to the link register: written with `pc` when `TRAP_SAVES_R7`, else unchanged (R170). -/
def TrapLink (s t : State) : Prop := t.reg 7 = if trapSavesR7 then s.pc else s.reg 7

/-- A reading that polls touches the two keyboard cells and no other; a reading elsewhere touches none. -/
def ReadMemFrame (addrs : List Word) (s t : State) : Prop :=
  SameMemBut [0xFE00#16, 0xFE02#16] s t ∧ (0xFE00#16 ∉ addrs → SameMemBut [] s t)

/-! ### Ignored bits -/

/-- The bits of a word that R75 says this hardware ignores. -/
def ignoredBits (w : Word) : Word :=
  match w.getLsbD 15, w.getLsbD 14, w.getLsbD 13, w.getLsbD 12 with
  | false, false, false, true => if w.getLsbD 5 then 0 else 0x0018#16
  | false, false, true, true => 0x0E00#16
  | false, true, false, false => if w.getLsbD 11 then 0 else 0x063F#16
  | false, true, false, true => if w.getLsbD 5 then 0 else 0x0018#16
  | true, false, false, false => 0x0FFF#16
  | true, false, false, true => 0x003F#16
  | true, true, false, false => 0x0E3F#16
  | true, true, false, true => 0x0FFF#16
  | true, true, true, true => 0x0F00#16
  | false, false, false, false | false, false, true, false | false, true, true, false | false, true, true, true
  | true, false, true, false | true, false, true, true | true, true, true, false => 0

/-! ### What an instruction may write -/

/-- The register an instruction writes with the flags updated from the value written (R28); `none` for the instructions
that never change the flags. -/
def flagDest : Instr → Option Reg
  | .addReg dr _ _ _ | .addImm dr _ _ | .andReg dr _ _ _ | .andImm dr _ _ | .notReg dr _ _ => some dr
  | .ld dr _ | .ldi dr _ | .ldr dr _ _ | .lea dr _ => some dr
  | .inp _ => some 0
  | .trap v _ => if v = 0x23#8 then some 0 else none
  | .br _ _ | .st _ _ | .jsr _ | .jsrr _ _ _ | .str _ _ _ | .rti _ | .sti _ _ | .jmp _ _ _ | .reserved _ | .ret _ _
  | .getc _ | .out _ | .puts _ | .putsp _ | .halt _ => none

/-- Is the instruction a TRAP, under its own name or a routine's? -/
def isTrap : Instr → Bool
  | .trap _ _ | .getc _ | .out _ | .puts _ | .inp _ | .putsp _ | .halt _ => true
  | .br _ _ | .addReg _ _ _ _ | .addImm _ _ _ | .ld _ _ | .st _ _ | .jsr _ | .jsrr _ _ _ | .andReg _ _ _ _
  | .andImm _ _ _ | .ldr _ _ _ | .str _ _ _ | .rti _ | .notReg _ _ _ | .ldi _ _ | .sti _ _ | .jmp _ _ _ | .reserved _
  | .lea _ _ | .ret _ _ => false

/-- The general registers an instruction may write (R20). -/
def destRegs : Instr → List Reg
  | .addReg dr _ _ _ | .addImm dr _ _ | .andReg dr _ _ _ | .andImm dr _ _ | .notReg dr _ _ => [dr]
  | .ld dr _ | .ldi dr _ | .ldr dr _ _ | .lea dr _ => [dr]
  | .jsr _ | .jsrr _ _ _ => [7]
  | .getc _ | .inp _ => [0, 7]
  | .trap v _ => if v = 0x20#8 ∨ v = 0x23#8 then [0, 7] else [7]
  | .out _ | .puts _ | .putsp _ | .halt _ => [7]
  | .br _ _ | .st _ _ | .str _ _ _ | .rti _ | .sti _ _ | .jmp _ _ _ | .reserved _ | .ret _ _ => []

/-- The control transfers: the instructions that may write `pc` (R24). -/
def writesPc : Instr → Bool
  | .br _ _ | .jsr _ | .jsrr _ _ _ | .jmp _ _ _ | .ret _ _ => true
  | .addReg _ _ _ _ | .addImm _ _ _ | .ld _ _ | .st _ _ | .andReg _ _ _ _ | .andImm _ _ _ | .ldr _ _ _ | .str _ _ _
  | .rti _ | .notReg _ _ _ | .ldi _ _ | .sti _ _ | .reserved _ | .lea _ _ | .trap _ _ | .getc _ | .out _ | .puts _
  | .inp _ | .putsp _ | .halt _ => false

/-- The instruction stores to this address when run in this state (R144, R145, R146). -/
def StoresTo (i : Instr) (s : State) (a : Word) : Prop :=
  match i with
  | .st _ off => a = s.pc + sext off
  | .sti _ off => ∃ s1, Reads s (s.pc + sext off) a s1
  | .str _ base off => a = s.reg base + sext off
  | _ => False

/-- Does executing the instruction read memory or wait for input? Those that do not never meet the device (R49, R50). -/
def touchesDevice : Instr → Bool
  | .ld _ _ | .ldi _ _ | .ldr _ _ _ | .sti _ _ | .getc _ | .puts _ | .inp _ | .putsp _ | .trap _ _ => true
  | .br _ _ | .addReg _ _ _ _ | .addImm _ _ _ | .st _ _ | .jsr _ | .jsrr _ _ _ | .andReg _ _ _ _ | .andImm _ _ _
  | .str _ _ _ | .rti _ | .notReg _ _ _ | .jmp _ _ _ | .reserved _ | .lea _ _ | .ret _ _ | .out _ | .halt _ => false

/-- The device answers the next `n` calls, whatever it answers (R52, R253). -/
def Device.Answers : Nat → Device → Prop
  | 0, _ => True
  | n + 1, d => ∃ b e, Device.next d = some (b, e) ∧ Device.Answers n e

/-! ### Stopping -/

/-- The record of a fatal fault (R202). -/
def Fault.record : Fault → Option FaultRecord
  | .rti r => some r
  | .reserved r => some r
  | .badTrap _ r => some r
  | .pcWrap r => some r
  | .deviceSilent => none
  | .stringEndless => none

/-- Two outcomes that differ at most in the instruction word a fault recorded. -/
def SameButWord : Result → Result → Prop
  | .next s, .next t => s = t
  | .fault (.rti r), .fault (.rti q) => r.addr = q.addr ∧ r.state = q.state
  | .fault (.reserved r), .fault (.reserved q) => r.addr = q.addr ∧ r.state = q.state
  | .fault (.badTrap v r), .fault (.badTrap u q) => v = u ∧ r.addr = q.addr ∧ r.state = q.state
  | .fault f, .fault g => f = g
  | .refused f, .refused g => f = g
  | _, _ => False

/-- The invariant of every state the machine can be in: memory in canonical form. -/
abbrev State.Inv (s : State) : Prop := Memory.wf s.mem = true

/-- A step that goes on. -/
def StepSafe (s : State) : Prop := ∃ t, step s = .next t

end Sys2Proof.Machine
end

