-- ==== Sys2Proof/Certificates/Slice0/Obligations.lean ====
section
/-! DEFINITION. The statements for the provers, each listed in OBLIGATIONS.json. A docstring names the rule a statement
formalises and, where it rests on a choice of the spec or the model, the decision and the log entry. -/

open Sys2Proof Sys2Proof.Machine

/-- Sign extension of the 5, 6, 9 and 11-bit fields. (R8.) -/
def Obligations.SignExtension : Prop :=
  ∀ n, n = 5 ∨ n = 6 ∨ n = 9 ∨ n = 11 → ∀ f : BitVec n,
    (sext f).toInt = f.toInt ∧ ∀ i, i < 16 → (sext f).getLsbD i = if i < n then f.getLsbD i else f.getLsbD (n - 1)

/-- setcc gives Z, N or P of the value, and exactly one flag. (10_state.md section 3 (R25, R27, R29),
92_eei_decisions.md D4.) The bit patterns 0b100, 0b010 and 0b001 of N, Z and P are the spec's own choice from
general knowledge (R25, D4; log 11). -/
def Obligations.SetccSetsExactlyOneFlag : Prop :=
  ∀ (s : State) (v : Word), FlagsOf v (s.setcc v).cond ∧ OneFlag (s.setcc v).cond ∧
    s.setcc v = { s with cond := (s.setcc v).cond }

/-- A one-word write changes that cell and nothing else, at every address. (R43.) -/
def Obligations.MemWriteHasNoSideEffect : Prop :=
  ∀ (s : State) (a v : Word), (s.memWrite a v).cell a = v ∧ SameMemBut [a] s (s.memWrite a v) ∧
    s.memWrite a v = { s with mem := (s.memWrite a v).mem }

/-- A read at 0xFE00 polls the device; a read anywhere else has no side effect. (20_memory.md section 2 (R42),
20_memory.md section 4 (R45, R46, R47, R49), 92_eei_decisions.md D5, D7, D8.) The keyboard addresses and the words a
poll writes are the spec's own choices (D5, D7, D8; logs 11 and 13). -/
def Obligations.KeyboardReadPolls : Prop :=
  (∀ (s : State) (b : Byte) (d : Device), Device.next s.dev = some (b, d) → b ≠ 0x00#8 →
    ∃ t, s.memRead 0xFE00#16 = some (0x8000#16, t) ∧ t.cell 0xFE00#16 = 0x8000#16 ∧ (t.cell 0xFE02#16).toNat = b.toNat ∧
      SameMemBut [0xFE00#16, 0xFE02#16] s t ∧ t = { s with mem := t.mem, dev := d }) ∧
  (∀ (s : State) (d : Device), Device.next s.dev = some (0x00#8, d) →
    ∃ t, s.memRead 0xFE00#16 = some (0x0000#16, t) ∧ t.cell 0xFE00#16 = 0x0000#16 ∧ SameMemBut [0xFE00#16] s t ∧
      t = { s with mem := t.mem, dev := d }) ∧
  (∀ s : State, Device.next s.dev = none → s.memRead 0xFE00#16 = none) ∧
  ∀ (s : State) (a : Word), a ≠ 0xFE00#16 → s.memRead a = some (s.cell a, s)

/-- The machine's read is exactly the spec's read relation. (20_memory.md section 2 (R42), 20_memory.md section 4
(R45), 92_eei_decisions.md D5, D7, D8.) The words a poll writes are the spec's own choice (D7; log 13). The keyboard
addresses are general knowledge (D5; log 11), and that every read at 0xFE00 polls is the spec's own choice (D8; log
13). -/
def Obligations.MemReadIsTheReadRelation : Prop :=
  ∀ (s t : State) (a v : Word), s.memRead a = some (v, t) ↔ Reads s a v t

/-- A word stored to the keyboard status cell is never read back; one stored to the data cell is. (20_memory.md
section 4 (R48), 92_eei_decisions.md D5, D7, D8.) R48 is marked derived in the spec, and the two words are its own
choice (D7; log 13). The keyboard addresses are general knowledge (D5; log 11), and that every read at 0xFE00 polls
is the spec's own choice (D8; log 13). -/
def Obligations.StoredStatusWordIsNeverRead : Prop :=
  (∀ (s t : State) (v w : Word), (s.memWrite 0xFE00#16 v).memRead 0xFE00#16 = some (w, t) → w = 0x8000#16 ∨ w = 0x0000#16) ∧
  ∀ (s : State) (v : Word), (s.memWrite 0xFE02#16 v).memRead 0xFE02#16 = some (v, s.memWrite 0xFE02#16 v)

/-- ADD, register form: the wrapped sum in DR, its flags, and nothing else. (41_operate.md (R120), 30_encoding.md
section 1 (R71), 92_eei_decisions.md D1, D2, D4.) The field positions in the encoding clause are the spec's own
choice from general knowledge (30_encoding.md R71, D1, D2; log 11). The bit patterns of the flags are general
knowledge too (10_state.md R25, D4; log 11). -/
def Obligations.AddRegisterForm : Prop :=
  (∀ w : Word, w.extractLsb' 12 4 = 0b0001#4 → w.getLsbD 5 = false →
    decode w = .addReg (regField w 9) (regField w 6) (regField w 0) (w.extractLsb' 3 2)) ∧
  ∀ (s : State) (dr sr1 sr2 : Reg) (spare : BitVec 2), ∃ t, exec (.addReg dr sr1 sr2 spare) s = .next t ∧
    (t.reg dr).toNat = ((s.reg sr1).toNat + (s.reg sr2).toNat) % 65536 ∧
    FlagsOf (t.reg dr) t.cond ∧ SameRegsBut [dr] s t ∧ t.pc = s.pc ∧ t.run = s.run ∧ SameMemBut [] s t ∧ SamePort s t

/-- ADD, immediate form: the wrapped sum with the extended immediate in DR, its flags, and nothing else.
(41_operate.md (R121), 30_encoding.md section 3 (R73), 30_encoding.md section 1 (R71), 92_eei_decisions.md D2.) R121
marks the selection of the form by bit 5 as general knowledge (D2; log 11). The field positions in the encoding
clause are the spec's own choice from general knowledge (30_encoding.md R71, D1, D2; log 11). The bit patterns of
the flags are the spec's own choice from general knowledge (10_state.md R25, D4; log 11). -/
def Obligations.AddImmediateForm : Prop :=
  (∀ w : Word, w.extractLsb' 12 4 = 0b0001#4 → w.getLsbD 5 = true →
    decode w = .addImm (regField w 9) (regField w 6) (w.extractLsb' 0 5)) ∧
  ∀ (s : State) (dr sr1 : Reg) (imm5 : BitVec 5), ∃ t, exec (.addImm dr sr1 imm5) s = .next t ∧
    (t.reg dr).toNat = ((s.reg sr1).toNat + (sext imm5).toNat) % 65536 ∧
    FlagsOf (t.reg dr) t.cond ∧ SameRegsBut [dr] s t ∧ t.pc = s.pc ∧ t.run = s.run ∧ SameMemBut [] s t ∧ SamePort s t

/-- AND, register form: bit by bit in DR, its flags, and nothing else. (41_operate.md (R122), 30_encoding.md section
1 (R71), 92_eei_decisions.md D1, D2, D4.) The field positions in the encoding clause are the spec's own choice from
general knowledge (30_encoding.md R71, D1, D2; log 11). The bit patterns of the flags are general knowledge too
(10_state.md R25, D4; log 11). -/
def Obligations.AndRegisterForm : Prop :=
  (∀ w : Word, w.extractLsb' 12 4 = 0b0101#4 → w.getLsbD 5 = false →
    decode w = .andReg (regField w 9) (regField w 6) (regField w 0) (w.extractLsb' 3 2)) ∧
  ∀ (s : State) (dr sr1 sr2 : Reg) (spare : BitVec 2), ∃ t, exec (.andReg dr sr1 sr2 spare) s = .next t ∧
    (∀ k, k < 16 → (t.reg dr).getLsbD k = ((s.reg sr1).getLsbD k && (s.reg sr2).getLsbD k)) ∧
    FlagsOf (t.reg dr) t.cond ∧ SameRegsBut [dr] s t ∧ t.pc = s.pc ∧ t.run = s.run ∧ SameMemBut [] s t ∧ SamePort s t

/-- AND, immediate form: bit by bit with the extended immediate in DR, its flags, and nothing else. (41_operate.md
(R123), 30_encoding.md section 1 (R71), 92_eei_decisions.md D1, D2, D4.) The field positions in the encoding clause
are the spec's own choice from general knowledge (30_encoding.md R71, D1, D2; log 11). The bit patterns of the flags
are general knowledge too (10_state.md R25, D4; log 11). -/
def Obligations.AndImmediateForm : Prop :=
  (∀ w : Word, w.extractLsb' 12 4 = 0b0101#4 → w.getLsbD 5 = true →
    decode w = .andImm (regField w 9) (regField w 6) (w.extractLsb' 0 5)) ∧
  ∀ (s : State) (dr sr1 : Reg) (imm5 : BitVec 5), ∃ t, exec (.andImm dr sr1 imm5) s = .next t ∧
    (∀ k, k < 16 → (t.reg dr).getLsbD k = ((s.reg sr1).getLsbD k && (sext imm5).getLsbD k)) ∧
    FlagsOf (t.reg dr) t.cond ∧ SameRegsBut [dr] s t ∧ t.pc = s.pc ∧ t.run = s.run ∧ SameMemBut [] s t ∧ SamePort s t

/-- NOT: the complement in DR, its flags, and nothing else. (41_operate.md (R124), 30_encoding.md section 1 (R71),
92_eei_decisions.md D1, D2, D4.) The field positions in the encoding clause are the spec's own choice from general
knowledge (30_encoding.md R71, D1, D2; log 11). The bit patterns of the flags are general knowledge too (10_state.md
R25, D4; log 11). -/
def Obligations.NotComplementsRegister : Prop :=
  (∀ w : Word, w.extractLsb' 12 4 = 0b1001#4 →
    decode w = .notReg (regField w 9) (regField w 6) (w.extractLsb' 0 6)) ∧
  ∀ (s : State) (dr sr1 : Reg) (spare : BitVec 6), ∃ t, exec (.notReg dr sr1 spare) s = .next t ∧
    (∀ k, k < 16 → (t.reg dr).getLsbD k = !(s.reg sr1).getLsbD k) ∧
    FlagsOf (t.reg dr) t.cond ∧ SameRegsBut [dr] s t ∧ t.pc = s.pc ∧ t.run = s.run ∧ SameMemBut [] s t ∧ SamePort s t

/-- LD: the word at PC plus offset in DR, its flags, and nothing else but the read's poll. (42_memory_access.md
(R140), 30_encoding.md section 1 (R71), 92_eei_decisions.md D1, D2, D4, D5, D7, D8.) The field positions in the
encoding clause are the spec's own choice from general knowledge (30_encoding.md R71, D1, D2; log 11). The bit
patterns of the flags are general knowledge too (10_state.md R25, D4; log 11). The keyboard addresses of its frame
are general knowledge (D5; log 11), and that a read at 0xFE00 polls and the words a poll writes are the spec's own
choices (D8, D7; log 13). -/
def Obligations.LdLoadsPcRelative : Prop :=
  (∀ w : Word, w.extractLsb' 12 4 = 0b0010#4 → decode w = .ld (regField w 9) (w.extractLsb' 0 9)) ∧
  ∀ (s s1 : State) (dr : Reg) (off : BitVec 9) (v : Word), Reads s (s.pc + sext off) v s1 →
    ∃ t, exec (.ld dr off) s = .next t ∧ t.reg dr = v ∧ FlagsOf v t.cond ∧ SameRegsBut [dr] s t ∧ t.pc = s.pc ∧ t.run = s.run ∧ t.out = s.out ∧
      t.mem = s1.mem ∧ t.dev = s1.dev ∧ ReadMemFrame [s.pc + sext off] s t

/-- LDI: the word at the pointer in DR, both reads polling in order, its flags, and nothing else.
(42_memory_access.md (R141), 30_encoding.md section 1 (R71), 92_eei_decisions.md D1, D2, D4, D5, D7, D8.) The field
positions in the encoding clause are the spec's own choice from general knowledge (30_encoding.md R71, D1, D2; log
11). The bit patterns of the flags are general knowledge too (10_state.md R25, D4; log 11). The keyboard addresses
of its frame are general knowledge (D5; log 11), and that a read at 0xFE00 polls and the words a poll writes are the
spec's own choices (D8, D7; log 13). -/
def Obligations.LdiLoadsThroughPointer : Prop :=
  (∀ w : Word, w.extractLsb' 12 4 = 0b1010#4 → decode w = .ldi (regField w 9) (w.extractLsb' 0 9)) ∧
  ∀ (s s1 s2 : State) (dr : Reg) (off : BitVec 9) (addr v : Word),
    Reads s (s.pc + sext off) addr s1 → Reads s1 addr v s2 →
    ∃ t, exec (.ldi dr off) s = .next t ∧ t.reg dr = v ∧ FlagsOf v t.cond ∧ SameRegsBut [dr] s t ∧ t.pc = s.pc ∧ t.run = s.run ∧ t.out = s.out ∧
      t.mem = s2.mem ∧ t.dev = s2.dev ∧ ReadMemFrame [s.pc + sext off, addr] s t

/-- LDR: the word at base plus offset in DR, its flags, and nothing else but the read's poll. (42_memory_access.md
(R142), 30_encoding.md section 1 (R71), 92_eei_decisions.md D1, D2, D4, D5, D7, D8.) The field positions in the
encoding clause are the spec's own choice from general knowledge (30_encoding.md R71, D1, D2; log 11). The bit
patterns of the flags are general knowledge too (10_state.md R25, D4; log 11). The keyboard addresses of its frame
are general knowledge (D5; log 11), and that a read at 0xFE00 polls and the words a poll writes are the spec's own
choices (D8, D7; log 13). -/
def Obligations.LdrLoadsBasePlusOffset : Prop :=
  (∀ w : Word, w.extractLsb' 12 4 = 0b0110#4 → decode w = .ldr (regField w 9) (regField w 6) (w.extractLsb' 0 6)) ∧
  ∀ (s s1 : State) (dr base : Reg) (off : BitVec 6) (v : Word), Reads s (s.reg base + sext off) v s1 →
    ∃ t, exec (.ldr dr base off) s = .next t ∧ t.reg dr = v ∧ FlagsOf v t.cond ∧ SameRegsBut [dr] s t ∧ t.pc = s.pc ∧ t.run = s.run ∧ t.out = s.out ∧
      t.mem = s1.mem ∧ t.dev = s1.dev ∧ ReadMemFrame [s.reg base + sext off] s t

/-- LEA: PC plus offset in DR, its flags, no memory access and no poll. (42_memory_access.md (R143), 30_encoding.md
section 1 (R71), 92_eei_decisions.md D1, D2, D4.) The field positions in the encoding clause are the spec's own
choice from general knowledge (30_encoding.md R71, D1, D2; log 11). The bit patterns of the flags are general
knowledge too (10_state.md R25, D4; log 11). -/
def Obligations.LeaComputesAddressAndSetsFlags : Prop :=
  (∀ w : Word, w.extractLsb' 12 4 = 0b1110#4 → decode w = .lea (regField w 9) (w.extractLsb' 0 9)) ∧
  ∀ (s : State) (dr : Reg) (off : BitVec 9), ∃ t, exec (.lea dr off) s = .next t ∧
    (t.reg dr).toNat = (s.pc.toNat + (sext off).toNat) % 65536 ∧
    FlagsOf (t.reg dr) t.cond ∧ SameRegsBut [dr] s t ∧ t.pc = s.pc ∧ t.run = s.run ∧ SameMemBut [] s t ∧ SamePort s t

/-- ST: R0, whatever the field register, at PC plus offset, and nothing else. (42_memory_access.md (R144),
30_encoding.md section 1 (R71), 92_eei_decisions.md D1, D2, D30.) The field positions in the encoding clause are the
spec's own choice from general knowledge (30_encoding.md R71, D1, D2; log 11). That the source is R0 is the spec's
decision (D30, 90_conflicts.md C8; log 14). -/
def Obligations.StStoresRegisterZero : Prop :=
  (∀ w : Word, w.extractLsb' 12 4 = 0b0011#4 → decode w = .st (w.extractLsb' 9 3) (w.extractLsb' 0 9)) ∧
  ∀ (s : State) (spare : BitVec 3) (off : BitVec 9), ∃ t, exec (.st spare off) s = .next t ∧
    t.cell (s.pc + sext off) = s.reg 0 ∧ SameMemBut [s.pc + sext off] s t ∧
    SameRegsBut [] s t ∧ t.cond = s.cond ∧ t.pc = s.pc ∧ t.run = s.run ∧ SamePort s t

/-- STI: the field register at the pointer, and nothing else but the pointer read's poll. (42_memory_access.md
(R145), 30_encoding.md section 1 (R71), 92_eei_decisions.md D1, D2, D5, D7, D8.) The field positions in the encoding
clause are the spec's own choice from general knowledge (30_encoding.md R71, D1, D2; log 11). The keyboard addresses
of its frame are general knowledge (D5; log 11), and that a read at 0xFE00 polls and the words a poll writes are the
spec's own choices (D8, D7; log 13). -/
def Obligations.StiStoresThroughPointer : Prop :=
  (∀ w : Word, w.extractLsb' 12 4 = 0b1011#4 → decode w = .sti (regField w 9) (w.extractLsb' 0 9)) ∧
  ∀ (s s1 : State) (sr : Reg) (off : BitVec 9) (addr : Word), Reads s (s.pc + sext off) addr s1 →
    ∃ t, exec (.sti sr off) s = .next t ∧ t.cell addr = s.reg sr ∧ SameMemBut [addr] s1 t ∧
      SameMemBut [addr, 0xFE00#16, 0xFE02#16] s t ∧ (s.pc + sext off ≠ 0xFE00#16 → SameMemBut [addr] s t) ∧
      SameRegsBut [] s t ∧ t.cond = s.cond ∧ t.pc = s.pc ∧ t.run = s.run ∧ t.out = s.out ∧ t.dev = s1.dev

/-- STR: the field register at base plus offset, and nothing else. (42_memory_access.md (R146), 30_encoding.md
section 1 (R71), 92_eei_decisions.md D1, D2.) The field positions in the encoding clause are the spec's own choice
from general knowledge (30_encoding.md R71, D1, D2; log 11). -/
def Obligations.StrStoresBasePlusOffset : Prop :=
  (∀ w : Word, w.extractLsb' 12 4 = 0b0111#4 → decode w = .str (regField w 9) (regField w 6) (w.extractLsb' 0 6)) ∧
  ∀ (s : State) (sr base : Reg) (off : BitVec 6), ∃ t, exec (.str sr base off) s = .next t ∧
    t.cell (s.reg base + sext off) = s.reg sr ∧ SameMemBut [s.reg base + sext off] s t ∧
    SameRegsBut [] s t ∧ t.cond = s.cond ∧ t.pc = s.pc ∧ t.run = s.run ∧ SamePort s t

/-- A store over the next instruction is what the next step runs. (20_memory.md section 7 (R59), 30_encoding.md
section 6 (R80), 42_memory_access.md (R144, R145, R146), 92_eei_decisions.md D5, D7, D8, D9, D30.) R59 is marked
derived in the spec. That ST stores R0 is the spec's decision (D30; log 14). The two addresses left out are those of
D5 and D8 (logs 11 and 13: the fetch's own poll overwrites the cell) and D9 (log 10), and the words a poll of STI's
pointer read writes are D7 (log 13). -/
def Obligations.StoreIsSeenByTheNextFetch : Prop :=
  (∀ (s t : State) (sr base : Reg) (off : BitVec 6), s.run = .running → s.pc ≠ 0xFE00#16 → s.pc ≠ 0xFFFF#16 →
    s.reg base + sext off = s.pc → exec (.str sr base off) s = .next t →
    step t = exec (decode (s.reg sr)) (t.setPc (t.pc + 1#16))) ∧
  (∀ (s t : State) (spare : BitVec 3) (off : BitVec 9), s.run = .running → s.pc ≠ 0xFE00#16 → s.pc ≠ 0xFFFF#16 →
    s.pc + sext off = s.pc → exec (.st spare off) s = .next t →
    step t = exec (decode (s.reg 0)) (t.setPc (t.pc + 1#16))) ∧
  ∀ (s s1 t : State) (sr : Reg) (off : BitVec 9), s.run = .running → s.pc ≠ 0xFE00#16 → s.pc ≠ 0xFFFF#16 →
    Reads s (s.pc + sext off) s.pc s1 → exec (.sti sr off) s = .next t →
    step t = exec (decode (s.reg sr)) (t.setPc (t.pc + 1#16))

/-- BR: taken exactly when the mask meets the flags, and nothing but pc changes. (40_control.md (R100), 10_state.md
section 3 (R26), 92_eei_decisions.md D1, D2, D4.) R100 marks the matching of the mask's bits to N, Z, P as general
knowledge (D4; log 11). The field positions in the encoding clause are the spec's own choice from general knowledge
(30_encoding.md R71, D1, D2; log 11). -/
def Obligations.BrTakenExactlyWhenMaskMeetsFlags : Prop :=
  (∀ w : Word, w.extractLsb' 12 4 = 0b0000#4 → decode w = .br (w.extractLsb' 9 3) (w.extractLsb' 0 9)) ∧
  ∀ (s : State) (nzp : BitVec 3) (off : BitVec 9), ∃ t, exec (.br nzp off) s = .next t ∧
    ((∃ k, k < 3 ∧ nzp.getLsbD k = true ∧ s.cond.getLsbD k = true) → t.pc = s.pc + sext off) ∧
    ((∀ k, k < 3 → nzp.getLsbD k = true → s.cond.getLsbD k = false) → t.pc = s.pc) ∧
    SameRegsBut [] s t ∧ t.cond = s.cond ∧ t.run = s.run ∧ SameMemBut [] s t ∧ SamePort s t

/-- JMP and RET: pc becomes the base register, and nothing else changes. (40_control.md (R101), 30_encoding.md
section 1 (R71), 92_eei_decisions.md D1, D2.) The field positions in the encoding clause are the spec's own choice
from general knowledge (30_encoding.md R71, D1, D2; log 11). -/
def Obligations.JmpAndRetGoToBase : Prop :=
  (∀ w : Word, w.extractLsb' 12 4 = 0b1100#4 →
    (regField w 6 ≠ 7 → decode w = .jmp (regField w 6) (w.extractLsb' 9 3) (w.extractLsb' 0 6)) ∧
    (regField w 6 = 7 → decode w = .ret (w.extractLsb' 9 3) (w.extractLsb' 0 6))) ∧
  ∀ (s : State) (i : Instr) (base : Reg) (hi : BitVec 3) (lo : BitVec 6),
    i = .jmp base hi lo ∨ (base = 7 ∧ i = .ret hi lo) → ∃ t, exec i s = .next t ∧ t.pc = s.reg base ∧
      SameRegsBut [] s t ∧ t.cond = s.cond ∧ t.run = s.run ∧ SameMemBut [] s t ∧ SamePort s t

/-- JSR: R7 is the return address, pc the target, the flags unchanged. (40_control.md (R102), 10_state.md section 3
(R28), 92_eei_decisions.md D1, D2, D19.) That the flags stay is the spec's own choice (D19; log 14). The field
positions in the encoding clause are the spec's own choice from general knowledge (30_encoding.md R71, D1, D2; log
11). -/
def Obligations.JsrLinksAndJumps : Prop :=
  (∀ w : Word, w.extractLsb' 12 4 = 0b0100#4 → w.getLsbD 11 = true → decode w = .jsr (w.extractLsb' 0 11)) ∧
  ∀ (s : State) (off : BitVec 11), ∃ t, exec (.jsr off) s = .next t ∧ t.reg 7 = s.pc ∧
    t.pc.toNat = (s.pc.toNat + (sext off).toNat) % 65536 ∧
    SameRegsBut [7] s t ∧ t.cond = s.cond ∧ t.run = s.run ∧ SameMemBut [] s t ∧ SamePort s t

/-- JSRR: R7 is written first, so that JSRR R7 goes on at the link; the flags unchanged. (40_control.md (R103),
92_eei_decisions.md D1, D2, D19, D31.) The order of the link and the base read, and that the flags stay, are the
spec's own choices (D31, D19; log 14). The field positions in the encoding clause are the spec's own choice from
general knowledge (30_encoding.md R71, D1, D2; log 11). -/
def Obligations.JsrrLinksBeforeReadingBase : Prop :=
  (∀ w : Word, w.extractLsb' 12 4 = 0b0100#4 → w.getLsbD 11 = false →
    decode w = .jsrr (regField w 6) (w.extractLsb' 9 2) (w.extractLsb' 0 6)) ∧
  ∀ (s : State) (base : Reg) (hi : BitVec 2) (lo : BitVec 6), ∃ t, exec (.jsrr base hi lo) s = .next t ∧
    t.reg 7 = s.pc ∧ (base = 7 → t.pc = s.pc) ∧ (base ≠ 7 → t.pc = s.reg base) ∧
    SameRegsBut [7] s t ∧ t.cond = s.cond ∧ t.run = s.run ∧ SameMemBut [] s t ∧ SamePort s t

/-- GETC: one answered byte, zero-extended, in R0, the flags unchanged. (44_trap_routines.md (R180), 43_system.md
(R170), 20_memory.md section 5 (R50), 92_eei_decisions.md D1, D2, D6, D15, D20, D22.) The vector number and the
optional write of R7 are the spec's own (D6, D15; logs 11 and 9); every value of TRAP_SAVES_R7 is covered. Zero
extension is D20 (log 15). The field positions in the encoding clause are the spec's own choice from general
knowledge (30_encoding.md R71, D1, D2; log 11). That an answer 0x00 is data is D22 (log 15). -/
def Obligations.GetcStoresByteWithoutFlags : Prop :=
  (∀ w : Word, w.extractLsb' 12 4 = 0b1111#4 → w.extractLsb' 0 8 = 0x20#8 → decode w = .getc (w.extractLsb' 8 4)) ∧
  ∀ (s : State) (i : Instr) (x : BitVec 4) (b : Byte) (d : Device), i = .getc x ∨ i = .trap 0x20#8 x →
    Device.next s.dev = some (b, d) →
    ∃ t, exec i s = .next t ∧ (t.reg 0).toNat = b.toNat ∧ TrapLink s t ∧ SameRegsBut [0, 7] s t ∧ t.cond = s.cond ∧
      t.pc = s.pc ∧ t.run = s.run ∧ SameMemBut [] s t ∧ t.out = s.out ∧ t.dev = d

/-- OUT: the low byte of R0 is emitted, and nothing else but the optional link. (44_trap_routines.md (R181),
43_system.md (R170), 92_eei_decisions.md D1, D2, D6, D15.) The vector number and the optional write of R7 are the
spec's own (D6, D15; logs 11 and 9); every value of TRAP_SAVES_R7 is covered. The field positions in the encoding
clause are the spec's own choice from general knowledge (30_encoding.md R71, D1, D2; log 11). -/
def Obligations.OutEmitsLowByte : Prop :=
  (∀ w : Word, w.extractLsb' 12 4 = 0b1111#4 → w.extractLsb' 0 8 = 0x21#8 → decode w = .out (w.extractLsb' 8 4)) ∧
  ∀ (s : State) (i : Instr) (x : BitVec 4), i = .out x ∨ i = .trap 0x21#8 x →
    ∃ t, exec i s = .next t ∧ t.out = s.out ++ [(s.reg 0).setWidth 8] ∧ TrapLink s t ∧ SameRegsBut [7] s t ∧
      t.cond = s.cond ∧ t.pc = s.pc ∧ t.run = s.run ∧ SameMemBut [] s t ∧ t.dev = s.dev

/-- IN: the prompt, one answered byte in R0, the optional echo, and the flags from R0, never N. (44_trap_routines.md
(R183), 43_system.md (R170), 90_conflicts.md C4, 92_eei_decisions.md D1, D2, D4, D6, D15, D16, D17, D20, D22.) The
vector number and the optional write of R7 are the spec's own (D6, D15; logs 11 and 9); every value of TRAP_SAVES_R7
is covered. IN_PROMPT and IN_ECHO are OPEN (D16, D17; log 9): the statement holds for every value. The field
positions in the encoding clause are the spec's own choice from general knowledge (30_encoding.md R71, D1, D2; log
11). Zero extension is D20, and that an answer 0x00 is data is D22 (log 15). The bit patterns of the flags are the
spec's own choice from general knowledge (10_state.md R25, D4; log 11). -/
def Obligations.InStoresByteAndSetsFlags : Prop :=
  (∀ w : Word, w.extractLsb' 12 4 = 0b1111#4 → w.extractLsb' 0 8 = 0x23#8 → decode w = .inp (w.extractLsb' 8 4)) ∧
  ∀ (s : State) (i : Instr) (x : BitVec 4) (b : Byte) (d : Device), i = .inp x ∨ i = .trap 0x23#8 x →
    Device.next s.dev = some (b, d) →
    ∃ t, exec i s = .next t ∧ (t.reg 0).toNat = b.toNat ∧ FlagsOf (t.reg 0) t.cond ∧ t.cond ≠ 0b100#3 ∧
      t.out = s.out ++ inPrompt ++ (if inEcho then [b] else []) ∧ TrapLink s t ∧ SameRegsBut [0, 7] s t ∧
      t.pc = s.pc ∧ t.run = s.run ∧ SameMemBut [] s t ∧ t.dev = d

/-- PUTS: the low byte of each word up to the zero word. (44_trap_routines.md (R182), 43_system.md (R170),
92_eei_decisions.md D1, D2, D5, D6, D8, D15, D24, D25.) The vector number and the optional write of R7 are the
spec's own (D6, D15; logs 11 and 9); every value of TRAP_SAVES_R7 is covered. A string that passes the keyboard
status cell is covered by the statement about every string run. The field positions in the encoding clause are the
spec's own choice from general knowledge (30_encoding.md R71, D1, D2; log 11). The byte emitted for a word with a
zero low byte and the pointer that wraps are D24 and D25 (log 16); the address 0xFE00 is D5 (log 11) and that a
string's read polls there D8 (log 13). -/
def Obligations.PutsEmitsLowBytesUntilZeroWord : Prop :=
  (∀ w : Word, w.extractLsb' 12 4 = 0b1111#4 → w.extractLsb' 0 8 = 0x22#8 → decode w = .puts (w.extractLsb' 8 4)) ∧
  ∀ (s : State) (i : Instr) (x : BitVec 4) (n : Nat), i = .puts x ∨ i = .trap 0x22#8 x → n < 65536 →
    (∀ k, k ≤ n → s.reg 0 + BitVec.ofNat 16 k ≠ 0xFE00#16) →
    (∀ k, k < n → s.cell (s.reg 0 + BitVec.ofNat 16 k) ≠ 0x0000#16) → s.cell (s.reg 0 + BitVec.ofNat 16 n) = 0x0000#16 →
    ∃ t, exec i s = .next t ∧
      t.out = s.out ++ (List.range n).flatMap (fun k => [(s.cell (s.reg 0 + BitVec.ofNat 16 k)).setWidth 8]) ∧
      TrapLink s t ∧ SameRegsBut [7] s t ∧ t.cond = s.cond ∧ t.pc = s.pc ∧ t.run = s.run ∧ SameMemBut [] s t ∧
      t.dev = s.dev

/-- PUTSP: low byte then non-zero high byte of each word up to the zero word. (44_trap_routines.md (R184),
43_system.md (R170), 92_eei_decisions.md D1, D2, D5, D6, D8, D15, D24, D25.) The vector number and the optional
write of R7 are the spec's own (D6, D15; logs 11 and 9); every value of TRAP_SAVES_R7 is covered. A string that
passes the keyboard status cell is covered by the statement about every string run. The field positions in the
encoding clause are the spec's own choice from general knowledge (30_encoding.md R71, D1, D2; log 11). The byte
emitted for a word with a zero low byte and the pointer that wraps are D24 and D25 (log 16); the address 0xFE00 is
D5 (log 11) and that a string's read polls there D8 (log 13). -/
def Obligations.PutspEmitsBothBytesUntilZeroWord : Prop :=
  (∀ w : Word, w.extractLsb' 12 4 = 0b1111#4 → w.extractLsb' 0 8 = 0x24#8 → decode w = .putsp (w.extractLsb' 8 4)) ∧
  ∀ (s : State) (i : Instr) (x : BitVec 4) (n : Nat), i = .putsp x ∨ i = .trap 0x24#8 x → n < 65536 →
    (∀ k, k ≤ n → s.reg 0 + BitVec.ofNat 16 k ≠ 0xFE00#16) →
    (∀ k, k < n → s.cell (s.reg 0 + BitVec.ofNat 16 k) ≠ 0x0000#16) → s.cell (s.reg 0 + BitVec.ofNat 16 n) = 0x0000#16 →
    ∃ t, exec i s = .next t ∧
      t.out = s.out ++ (List.range n).flatMap (fun k => 
        if (s.cell (s.reg 0 + BitVec.ofNat 16 k)).toNat < 256 then [(s.cell (s.reg 0 + BitVec.ofNat 16 k)).setWidth 8]
        else [(s.cell (s.reg 0 + BitVec.ofNat 16 k)).setWidth 8, (s.cell (s.reg 0 + BitVec.ofNat 16 k) >>> 8).setWidth 8]) ∧
      TrapLink s t ∧ SameRegsBut [7] s t ∧ t.cond = s.cond ∧ t.pc = s.pc ∧ t.run = s.run ∧ SameMemBut [] s t ∧
      t.dev = s.dev

/-- PUTS goes on exactly when its string run ends, polls of the keyboard included. (44_trap_routines.md (R182),
43_system.md (R170), 20_memory.md section 4 (R46), 92_eei_decisions.md D5, D6, D7, D8, D15, D24, D25.) The stop of a
string that never ends is the model's rendering of a step that never completes (I13, D25; log 8). That the string's
reads poll, and the words a poll writes, are the spec's own choices (D8, D7; log 13); so are the bytes emitted for a
word with a zero low byte and the pointer that wraps (D24, D25; log 16), and the vector number and the optional
write of R7 (D6, D15; logs 11 and 9). The device's answers are free (D22; log 6). The address 0xFE00 is general
knowledge (D5; log 11). -/
def Obligations.PutsEndsExactlyWithItsStringRun : Prop :=
  ∀ (s t : State) (i : Instr) (x : BitVec 4), i = .puts x ∨ i = .trap 0x22#8 x →
    (exec i s = .next t ↔
      StringRun (fun w => [w.setWidth 8]) (s.reg 0)
        (s.trapEntry trapSavesR7) t)

/-- PUTSP goes on exactly when its string run ends, polls of the keyboard included. (44_trap_routines.md (R184),
43_system.md (R170), 20_memory.md section 4 (R46), 92_eei_decisions.md D5, D6, D7, D8, D15, D24, D25.) The stop of a
string that never ends is the model's rendering of a step that never completes (I13, D25; log 8). That the string's
reads poll, and the words a poll writes, are the spec's own choices (D8, D7; log 13); so are the bytes emitted for a
word with a zero low byte and the pointer that wraps (D24, D25; log 16), and the vector number and the optional
write of R7 (D6, D15; logs 11 and 9). The device's answers are free (D22; log 6). The address 0xFE00 is general
knowledge (D5; log 11). -/
def Obligations.PutspEndsExactlyWithItsStringRun : Prop :=
  ∀ (s t : State) (i : Instr) (x : BitVec 4), i = .putsp x ∨ i = .trap 0x24#8 x →
    (exec i s = .next t ↔
      StringRun (fun w => if w.toNat < 256 then [w.setWidth 8] else [w.setWidth 8, (w >>> 8).setWidth 8]) (s.reg 0)
        (s.trapEntry trapSavesR7) t)

/-- HALT: run becomes Halted, HALT_OUTPUT is emitted, and nothing else but the optional link. (44_trap_routines.md
(R185), 43_system.md (R170), 92_eei_decisions.md D1, D2, D6, D15, D18.) The vector number and the optional write of
R7 are the spec's own (D6, D15; logs 11 and 9); every value of TRAP_SAVES_R7 is covered. HALT_OUTPUT is OPEN (D18;
log 9): the statement holds for every value. The field positions in the encoding clause are the spec's own choice
from general knowledge (30_encoding.md R71, D1, D2; log 11). -/
def Obligations.HaltSetsHalted : Prop :=
  (∀ w : Word, w.extractLsb' 12 4 = 0b1111#4 → w.extractLsb' 0 8 = 0x25#8 → decode w = .halt (w.extractLsb' 8 4)) ∧
  ∀ (s : State) (i : Instr) (x : BitVec 4), i = .halt x ∨ i = .trap 0x25#8 x →
    ∃ t, exec i s = .next t ∧ t.run = .halted ∧ t.out = s.out ++ haltOutput ∧ TrapLink s t ∧ SameRegsBut [7] s t ∧
      t.cond = s.cond ∧ t.pc = s.pc ∧ SameMemBut [] s t ∧ t.dev = s.dev

/-- RTI is the fatal fault RTI in every state, with the address and word of the instruction. (43_system.md (R172),
60_exceptions.md section 1 (R201, R202), 60_exceptions.md section 2 (R205), 92_eei_decisions.md D10.) The field
positions in the encoding clause are the spec's own choice from general knowledge (30_encoding.md R71, D1, D2; log
11). What a fault records and the order of the checks are the spec's own choices (D10; log 18). -/
def Obligations.RtiAlwaysFaults : Prop :=
  (∀ w : Word, w.extractLsb' 12 4 = 0b1000#4 → decode w = .rti (w.extractLsb' 0 12)) ∧
  (∀ (s : State) (x : BitVec 12), ∃ r, exec (.rti x) s = .fault (.rti r) ∧ r.state = s) ∧
  ∀ (s s1 : State) (ir : Word), s.run = .running → s.pc ≠ 0xFFFF#16 → Reads s s.pc ir s1 →
    ir.extractLsb' 12 4 = 0b1000#4 → step s = .fault (.rti ⟨s.pc, ir, s1.setPc (s.pc + 1#16)⟩)

/-- The reserved opcode is the fatal fault RESERVED, with the address and word of the instruction. (43_system.md
(R173), 60_exceptions.md section 1 (R201, R202), 60_exceptions.md section 2 (R205), 92_eei_decisions.md D10.) The
field positions in the encoding clause are the spec's own choice from general knowledge (30_encoding.md R71, D1, D2;
log 11). What a fault records and the order of the checks are the spec's own choices (D10; log 18). -/
def Obligations.ReservedOpcodeAlwaysFaults : Prop :=
  (∀ w : Word, w.extractLsb' 12 4 = 0b1101#4 → decode w = .reserved (w.extractLsb' 0 12)) ∧
  (∀ (s : State) (x : BitVec 12), ∃ r, exec (.reserved x) s = .fault (.reserved r) ∧ r.state = s) ∧
  ∀ (s s1 : State) (ir : Word), s.run = .running → s.pc ≠ 0xFFFF#16 → Reads s s.pc ir s1 →
    ir.extractLsb' 12 4 = 0b1101#4 → step s = .fault (.reserved ⟨s.pc, ir, s1.setPc (s.pc + 1#16)⟩)

/-- TRAP with any other vector is the fatal fault BAD_TRAP, and R7 is not written. (43_system.md (R170),
60_exceptions.md section 1 (R202), 60_exceptions.md section 2 (R205), 92_eei_decisions.md D1, D2, D6, D10.) What a
fault records and the order of the checks are the spec's own choices (D10; log 18), the vectors too (D6; log 11).
The field positions in the encoding clause are the spec's own choice from general knowledge (30_encoding.md R71, D1,
D2; log 11). -/
def Obligations.UnknownVectorFaultsBeforeAnyEffect : Prop :=
  (∀ w : Word, w.extractLsb' 12 4 = 0b1111#4 →
    (w.extractLsb' 0 8).toNat < 32 ∨ 37 < (w.extractLsb' 0 8).toNat →
    decode w = .trap (w.extractLsb' 0 8) (w.extractLsb' 8 4)) ∧
  (∀ (s : State) (v : Byte) (x : BitVec 4), v.toNat < 32 ∨ 37 < v.toNat →
    ∃ r, exec (.trap v x) s = .fault (.badTrap v r) ∧ r.state = s) ∧
  ∀ (s s1 : State) (ir : Word), s.run = .running → s.pc ≠ 0xFFFF#16 → Reads s s.pc ir s1 →
    ir.extractLsb' 12 4 = 0b1111#4 → (ir.extractLsb' 0 8).toNat < 32 ∨ 37 < (ir.extractLsb' 0 8).toNat →
    step s = .fault (.badTrap (ir.extractLsb' 0 8) ⟨s.pc, ir, s1.setPc (s.pc + 1#16)⟩)

/-- A fetch from 0xFFFF is the fatal fault PC_WRAP: the word is read, not decoded, and pc stays. (30_encoding.md
section 6 (R80), 60_exceptions.md section 1 (R200, R202), 60_exceptions.md section 2 (R205), 92_eei_decisions.md D9,
D10.) PC_WRAP_POLICY = fault is the spec's own choice (D9; log 10). What a fault records and the order of the checks
are the spec's own choices (R202, R205, D10; log 18). -/
def Obligations.FetchAtTopOfMemoryFaults : Prop :=
  ∀ s : State, s.run = .running → s.pc = 0xFFFF#16 → step s = .fault (.pcWrap ⟨0xFFFF#16, s.cell 0xFFFF#16, s⟩)

/-- A fatal fault of a step has one of the four listed causes, by its code, and its record is precise.
(60_exceptions.md section 1 (R200, R201, R202, R203, R204), 60_exceptions.md section 2 (R205), 92_eei_decisions.md
D1, D6, D9, D10, D32.) The codes, the record and the order of the checks are the spec's own choices (D32, D10, D9;
logs 18 and 10). The opcodes and the vectors the causes are given by are general knowledge (D1, D6; log 11). -/
def Obligations.OnlyTheListedFaults : Prop :=
  ∀ (s : State) (f : Fault) (c : Nat), step s = .fault f → f.code = some c →
    ∃ ir s1, Reads s s.pc ir s1 ∧
      ((c = 4 ∧ s.pc = 0xFFFF#16 ∧ f.record = some ⟨s.pc, ir, s1⟩) ∨
       (s.pc ≠ 0xFFFF#16 ∧ f.record = some ⟨s.pc, ir, s1.setPc (s.pc + 1#16)⟩ ∧
        ((c = 1 ∧ ir.extractLsb' 12 4 = 0b1000#4) ∨ (c = 2 ∧ ir.extractLsb' 12 4 = 0b1101#4) ∨
         (c = 3 ∧ ir.extractLsb' 12 4 = 0b1111#4 ∧
          ((ir.extractLsb' 0 8).toNat < 32 ∨ 37 < (ir.extractLsb' 0 8).toNat)))))

/-- No instruction but RTI, the reserved opcode and an unknown TRAP raises a fatal fault; none is refused.
(30_encoding.md section 4 (R76), 60_exceptions.md section 1 (R204), 92_eei_decisions.md D1, D6.) The opcode and
vector numbers behind the constructors are the spec's own choices (D1, D6; log 11). -/
def Obligations.OnlyIllegalInstructionsFaultAndNoneIsRefused : Prop :=
  (∀ (s : State) (i : Instr) (r : Refusal), exec i s ≠ .refused r) ∧
  ∀ (s : State) (i : Instr) (f : Fault) (c : Nat), exec i s = .fault f → f.code = some c →
    (∃ x, i = .rti x) ∨ (∃ x, i = .reserved x) ∨ ∃ v x, i = .trap v x ∧ (v.toNat < 32 ∨ 37 < v.toNat)

/-- An instruction whose read_byte call is never answered has no next state. (20_memory.md section 5 (R50, R52),
20_memory.md section 4 (R46), 93_implementation_defined.md I12, 44_trap_routines.md (R180, R182, R183, R184),
92_eei_decisions.md D5, D6, D7, D8, D22, D24, D25.) The stop is the model's rendering of a step that never completes
(I12; log 7). The address 0xFE00 and the vectors are general knowledge (D5, D6; log 11), and which reads poll, and
the words a poll writes, are the spec's own choices (D8, D7; log 13), as are the bytes a string emits and its
pointer that wraps (D24, D25; log 16). -/
def Obligations.SilentDeviceLeavesNoNextState : Prop :=
  (∀ s : State, Device.next s.dev = none →
    (∀ x, exec (.getc x) s = .fault .deviceSilent ∧ exec (.trap 0x20#8 x) s = .fault .deviceSilent ∧
      exec (.inp x) s = .fault .deviceSilent ∧ exec (.trap 0x23#8 x) s = .fault .deviceSilent) ∧
    (∀ dr off, s.pc + sext off = 0xFE00#16 → exec (.ld dr off) s = .fault .deviceSilent ∧
      exec (.ldi dr off) s = .fault .deviceSilent ∧ exec (.sti dr off) s = .fault .deviceSilent) ∧
    (∀ dr base off, s.reg base + sext off = 0xFE00#16 → exec (.ldr dr base off) s = .fault .deviceSilent) ∧
    (∀ x, s.reg 0 = 0xFE00#16 → exec (.puts x) s = .fault .deviceSilent ∧ exec (.trap 0x22#8 x) s = .fault .deviceSilent ∧
      exec (.putsp x) s = .fault .deviceSilent ∧ exec (.trap 0x24#8 x) s = .fault .deviceSilent) ∧
    (s.run = .running → s.pc = 0xFE00#16 → step s = .fault .deviceSilent)) ∧
  (∀ (s s1 : State) (dr : Reg) (off : BitVec 9), Reads s (s.pc + sext off) 0xFE00#16 s1 → Device.next s1.dev = none →
    exec (.ldi dr off) s = .fault .deviceSilent) ∧
  (∀ (s : State) (i : Instr) (x : BitVec 4), i = .puts x ∨ i = .trap 0x22#8 x →
    StringSilent lowByte (s.reg 0) (s.trapEntry trapSavesR7) → exec i s = .fault .deviceSilent) ∧
  ∀ (s : State) (i : Instr) (x : BitVec 4), i = .putsp x ∨ i = .trap 0x24#8 x →
    StringSilent bothBytes (s.reg 0) (s.trapEntry trapSavesR7) → exec i s = .fault .deviceSilent

/-- A step of a running machine is exec of the decoded word, with pc advanced by one. (30_encoding.md section 6
(R80, R81), 20_memory.md section 7 (R59), 92_eei_decisions.md D9.) At pc = 0xFFFF the spec's choice D9 applies (log
10), stated on its own. -/
def Obligations.StepRunsTheFetchedInstruction : Prop :=
  ∀ (s s1 : State) (ir : Word) (i : Instr), s.run = .running → s.pc ≠ 0xFFFF#16 → Reads s s.pc ir s1 → decode ir = i →
    step s = exec i (s1.setPc (s.pc + 1#16))

/-- A word placed where the next step fetches is what the next step runs. (30_encoding.md section 6 (R80),
70_reset_and_hazards.md section 1 (R230), 92_eei_decisions.md D5, D8, D9.) How a program comes to run is the model's
convention (log 5). The two addresses left out are those of D5 and D8 (logs 11 and 13: the fetch's own poll
overwrites the cell) and D9 (log 10). -/
def Obligations.PlacedWordRunsNext : Prop :=
  ∀ (s : State) (w : Word), s.pc ≠ 0xFE00#16 → s.pc ≠ 0xFFFF#16 →
    step (s.withFetchWord 16 w.toNat) = exec (decode w) ((s.withFetchWord 16 w.toNat).setPc (s.pc + 1#16))

/-- Only HALT ends Running, and no step leaves a Halted machine. (R30.) -/
def Obligations.RunIsHaltedOnlyByHalt : Prop :=
  ∀ s t : State, step s = .next t → s.run = .running ∧
    ∃ ir s1, Reads s s.pc ir s1 ∧
      (t.run = .halted ↔ ∃ x, decode ir = .halt x)

/-- A step from Halted is refused. (70_reset_and_hazards.md section 2 (R242), 60_exceptions.md section 6 (R225),
92_eei_decisions.md D11.) That the model gives no successor is the spec's own choice (D11; log 17). -/
def Obligations.HaltedMachineHasNoStep : Prop :=
  ∀ s : State, s.run = .halted → step s = .refused .stepWhenHalted

/-- Only the listed instructions change the flags, and from the value they write. (10_state.md section 3 (R28, R29),
90_conflicts.md C1, 92_eei_decisions.md D4, D6, D15, D19.) That JSR, JSRR and TRAP's link leave the flags is the
spec's own choice (D19, D15; log 14). The vector of IN is general knowledge (D6; log 11). The bit patterns of the
flags are the spec's own choice from general knowledge (10_state.md R25, D4; log 11). -/
def Obligations.FlagsChangeOnlyWhereListed : Prop :=
  ∀ (s t : State) (i : Instr), exec i s = .next t →
    (∀ r, flagDest i = some r → FlagsOf (t.reg r) t.cond ∧ OneFlag t.cond) ∧ (flagDest i = none → t.cond = s.cond)

/-- BR is the only reader of the flags, through its mask. (10_state.md section 3 (R26, R28), 92_eei_decisions.md D4,
D6, D15, D19.) Which instructions set the flags is R28, where that JSR, JSRR and TRAP's link leave them is the
spec's own choice (D19, D15; log 14). How the mask's bits meet N, Z and P, and the vector of IN, are general
knowledge (D4, D6; log 11). -/
def Obligations.FlagsAreReadOnlyByBr : Prop :=
  (∀ (s : State) (nzp : BitVec 3) (off : BitVec 9), ∃ t, exec (.br nzp off) s = .next t ∧
    t.pc = if nzp &&& s.cond = 0b000#3 then s.pc else s.pc + sext off) ∧
  ∀ (s : State) (i : Instr) (c : BitVec 3), (∀ nzp off, i ≠ .br nzp off) →
    (∀ t, exec i s = .next t →
      exec i { s with cond := c } = .next { t with cond := if flagDest i = none then c else t.cond }) ∧
    ∀ f, exec i s = .fault f → ∃ g, exec i { s with cond := c } = .fault g ∧ g.code = f.code ∧
      (f.code = none → g = f) ∧ g.record = f.record.map fun r => { r with state := { r.state with cond := c } }

/-- An instruction changes no general register but its listed destinations. (10_state.md section 1 (R20, R21),
43_system.md (R170), 92_eei_decisions.md D6, D15.) TRAP_SAVES_R7 is OPEN (D15; log 9): the statement holds for both
values. The vectors of GETC and IN are general knowledge (D6; log 11). -/
def Obligations.RegistersChangeOnlyWhereListed : Prop :=
  ∀ (s t : State) (i : Instr), exec i s = .next t →
    SameRegsBut (destRegs i) s t ∧ (isTrap i = true → TrapLink s t)

/-- Only BR, JMP, RET, JSR and JSRR write pc; every other instruction leaves the post-fetch value. (R24.) -/
def Obligations.PcChangesOnlyByControlTransfer : Prop :=
  (∀ (s t : State) (i : Instr), exec i s = .next t → writesPc i = false → t.pc = s.pc) ∧
  ∀ s t : State, step s = .next t → ∃ ir s1, Reads s s.pc ir s1 ∧ exec (decode ir) (s1.setPc (s.pc + 1#16)) = .next t ∧
    (writesPc (decode ir) = false → t.pc = s.pc + 1#16)

/-- A cell changes only as the address a store computes, or as one of the keyboard cells. (20_memory.md section 2
(R43), 20_memory.md section 4 (R47, R49), 42_memory_access.md (R144, R145, R146), 92_eei_decisions.md D5, D7, D8.)
The keyboard addresses are the spec's own choice (D5; log 11). Which reads poll, and the cells a poll writes, are
its own choices too (D8, D7; log 13). -/
def Obligations.MemoryChangesOnlyByStoresAndPolls : Prop :=
  ∀ (s t : State) (i : Instr) (a : Word), exec i s = .next t → ¬StoresTo i s a →
    (a ≠ 0xFE00#16 → a ≠ 0xFE02#16 → t.cell a = s.cell a) ∧ (touchesDevice i = false → t.cell a = s.cell a)

/-- Output only grows at its end, and no instruction reads it. (10_state.md section 6 (R35), 44_trap_routines.md
(R186), 92_eei_decisions.md D34.) That the model keeps the output is the spec's own choice (D34; log 20). -/
def Obligations.OutputIsNeverRead : Prop :=
  ∀ (s t : State) (i : Instr) (o : List Byte), exec i s = .next t →
    ∃ e, t.out = s.out ++ e ∧ exec i { s with out := o } = .next { t with out := o ++ e }

/-- Instructions that neither read memory nor wait for input take no device answer and do not depend on any.
(20_memory.md section 5 (R50), 20_memory.md section 4 (R47, R49).) R49 is marked derived in the spec; the field that
holds the answers is the model's (log 6). -/
def Obligations.OnlyReadersMeetTheDevice : Prop :=
  ∀ (s t : State) (i : Instr) (d : Device), touchesDevice i = false → exec i s = .next t →
    t.dev = s.dev ∧ exec i { s with dev := d } = .next { t with dev := d }

/-- Every step keeps memory in canonical form. (20_memory.md section 1 (R40, R41), 20_memory.md section 2 (R42,
R43).) The form is the model's way of holding the 65,536 words (logs 1 and 2). -/
def Obligations.EveryStepKeepsCanonicalMemory : Prop :=
  ∀ s t : State, s.Inv → step s = .next t → t.Inv

/-- Memory is in canonical form at reset and after every accepted load. (10_state.md section 7 (R36),
70_reset_and_hazards.md section 1 (R230).) The form is the model's way of holding the 65,536 words (logs 1 and 2).
-/
def Obligations.ResetAndLoadAreCanonical : Prop :=
  State.reset.Inv ∧ ∀ (init : InitValues) (image : List Byte) (s : State), Memory.wf init.mem = true →
    load init image = some s → s.Inv

/-- With a device that answers and strings that end, every step of a legal instruction goes on. (30_encoding.md
section 4 (R76), 60_exceptions.md section 1 (R204), 70_reset_and_hazards.md section 3 (R253), 20_memory.md section 5
(R50, R52), 44_trap_routines.md (R182, R184), 92_eei_decisions.md D1, D6, D7, D8, D9, D15, D22, D24, D25.) The
opcode and vector numbers and PC_WRAP are the spec's own choices (D1, D6, D9; logs 11 and 10), and so are which
reads poll and the words a poll writes (D8, D7; log 13) and the bytes a string emits and its pointer that wraps
(D24, D25; log 16). TRAP_SAVES_R7 and the device's answers are OPEN (D15, D22; logs 9 and 6). -/
def Obligations.LegalInstructionsGoOn : Prop :=
  ∀ (s s1 : State) (ir : Word), s.run = .running → s.pc ≠ 0xFFFF#16 → Device.Answers 3 s.dev →
    Reads s s.pc ir s1 → ir.extractLsb' 12 4 ≠ 0b1000#4 → ir.extractLsb' 12 4 ≠ 0b1101#4 →
    (ir.extractLsb' 12 4 = 0b1111#4 → ir.extractLsb' 0 8 ∈ [0x20#8, 0x21#8, 0x22#8, 0x23#8, 0x24#8, 0x25#8]) →
    (ir.extractLsb' 12 4 = 0b1111#4 → ir.extractLsb' 0 8 = 0x22#8 →
      ∃ t, StringRun lowByte (s1.reg 0) ((s1.setPc (s.pc + 1#16)).trapEntry trapSavesR7) t) →
    (ir.extractLsb' 12 4 = 0b1111#4 → ir.extractLsb' 0 8 = 0x24#8 →
      ∃ t, StringRun bothBytes (s1.reg 0) ((s1.setPc (s.pc + 1#16)).trapEntry trapSavesR7) t) → StepSafe s

/-- Decoding the word of a well-formed instruction gives the instruction back. (30_encoding.md section 1 (R71),
30_encoding.md section 5 (R77, R78), 92_eei_decisions.md D1, D2, D6.) The layout is the spec's own choice (D1, D2,
D6; log 11); keeping the ignored bits is the model's (log 12). -/
def Obligations.DecodeOfEncodeIsTheInstruction : Prop :=
  ∀ i : Instr, i.wellFormed = true → decode (encode i) = i

/-- Every word decodes to a well-formed instruction whose word it is. (30_encoding.md section 1 (R70, R71),
30_encoding.md section 5 (R77), 92_eei_decisions.md D1, D2, D6.) The layout is the spec's own choice (D1, D2; log
11); keeping the ignored bits is the model's (log 12). The vectors behind well-formedness are general knowledge (D6;
log 11). -/
def Obligations.EncodeOfDecodeIsTheWord : Prop :=
  ∀ w : Word, (decode w).wellFormed = true ∧ encode (decode w) = w

/-- Every word lies in exactly one base row of the opcode table, and in the row of its instruction. (30_encoding.md
section 2 (R72), 92_eei_decisions.md D1, D2, D6.) The opcode numbers are the spec's own choice (D1; log 11). The
bits that select a form, and the vectors in the rows of the six routines, are too (D2, D6; log 11). -/
def Obligations.BaseRowsPartitionTheWords : Prop :=
  ∀ w : Word, (baseRows.filter (fun r => r.has w)).length = 1 ∧ (decode w).row.has w = true

/-- Flipping ignored bits of a word changes nothing but the word a fault records. (30_encoding.md section 4 (R75),
92_eei_decisions.md D1, D2, D3.) That they are ignored is the spec's own choice (D3; log 12). Where they stand is
general knowledge (D1, D2; log 11). -/
def Obligations.IgnoredBitsNeverMatter : Prop :=
  ∀ (w x : Word) (s : State),
    SameButWord (exec (decode w) s) (exec (decode (w ^^^ (x &&& ignoredBits w))) s)

/-- Words the spec writes out decode to the instructions it names. (95_test_vectors.md L1, L2.1, L2.2, L2.3, L2.5,
41_operate.md (R120, R121), 30_encoding.md section 1 (R71), 92_eei_decisions.md D1, D2, D6.) A sanity statement.
0x1283 stands in L1 (E3), 0x127F is the example of R121, the others stand in L2. The opcode numbers, field positions
and vectors they decode by are general knowledge (D1, D2, D6; log 11). -/
def Obligations.WordsOfTheSpecDecode : Prop :=
  decode 0x1283#16 = .addReg 1 2 3 0 ∧ decode 0x127F#16 = .addImm 1 1 0b11111 ∧ decode 0x997F#16 = .notReg 4 5 0b111111 ∧
  decode 0x0403#16 = .br 0b010#3 3 ∧ decode 0x41C0#16 = .jsrr 7 0 0 ∧ decode 0x697F#16 = .ldr 4 5 0b111111 ∧
  decode 0xB201#16 = .sti 1 1 ∧ decode 0xF125#16 = .halt 1 ∧ decode 0xC1C0#16 = .ret 0 0

/-- load accepts exactly the well-shaped images and builds the stated initial state. (70_reset_and_hazards.md
section 1 (R230, R231, R232, R233), 10_state.md section 7 (R36), 92_eei_decisions.md D8, D12, D13, D14, D21, D34.)
Refusing malformed images, not polling at load, and the empty output are the spec's own choices (D21, D8, D34; log
20). What load leaves OPEN is INIT_GPR, INIT_COND and INIT_MEM (D12, D13, D14; logs 2, 3, 4): the statement holds
for every value. -/
def Obligations.LoadBuildsTheInitialState : Prop :=
  ∀ (init : InitValues) (image : List Byte),
    ((load init image).isSome = true ↔ 2 ≤ image.length ∧ image.length % 2 = 0 ∧
      (image.getD 0 0).toNat * 256 + (image.getD 1 0).toNat + (image.length - 2) / 2 ≤ 65536) ∧
    ∀ s, load init image = some s →
      s.pc.toNat = (image.getD 0 0).toNat * 256 + (image.getD 1 0).toNat ∧
      (∀ k, k < (image.length - 2) / 2 → (s.cell (s.pc + BitVec.ofNat 16 k)).toNat =
        (image.getD (2 + 2 * k) 0).toNat * 256 + (image.getD (3 + 2 * k) 0).toNat) ∧
      (∀ a : Word, (∀ k, k < (image.length - 2) / 2 → a ≠ s.pc + BitVec.ofNat 16 k) →
        s.cell a = Memory.read init.mem a.toNat) ∧
      s.x = init.gpr ∧ s.cond = init.cond ∧ s.run = .running ∧ s.out = [] ∧ s.dev = init.dev

/-- At reset the machine is Running and has emitted nothing. (10_state.md section 7 (R36), 92_eei_decisions.md D34.)
The other values of the reset state are the model's choices (logs 2 to 6), and nothing here rests on them. -/
def Obligations.ResetIsRunningWithEmptyOutput : Prop :=
  State.reset.run = .running ∧ State.reset.out = [] ∧
    load ⟨State.reset.x, State.reset.cond, State.reset.mem, State.reset.dev⟩
      [State.reset.pc.extractLsb' 8 8, State.reset.pc.extractLsb' 0 8] = some State.reset

/-- A run ends at its first Halt or fatal fault, a step that never completes is no end, and further allowance
changes nothing. (70_reset_and_hazards.md section 2 (R240, R241, R242, R243, R244), 92_eei_decisions.md D11, D29.)
That run() also stops at a fault is the spec's own choice (D29; log 20). The named stop of a step that never
completes is the model's rendering (logs 7 and 8), and no end of the run. That a Halted machine has no step is too
(D11; log 17). -/
def Obligations.RunEndsAtTheFirstHaltOrFault : Prop :=
  (∀ (n m : Nat) (s t : State), runFor n s = .halted t → n ≤ m →
    runFor m s = .halted t ∧ t.run = .halted ∧ step t = .refused .stepWhenHalted) ∧
  (∀ (n m : Nat) (s : State) (f : Fault), runFor n s = .stopped f → n ≤ m →
    runFor m s = .stopped f ∧ ∃ c, f.code = some c) ∧
  (∀ (n m : Nat) (s : State) (f : Fault), runFor n s = .stuck f →
    f.code = none ∧ (n ≤ m → runFor m s = .stuck f) ∧ (∀ u, runFor m s ≠ .halted u) ∧ ∀ g, runFor m s ≠ .stopped g) ∧
  (∀ (n : Nat) (s t : State), s.run = .running → runFor n s = .unfinished t → t.run = .running) ∧
  ∀ (n : Nat) (s t : State) (f : Fault), s.run = .running → runFor n s = .unfinished t →
    (∀ c, f.code = some c → step t = .fault f → runFor (n + 1) s = .stopped f) ∧
    (f.code = none → step t = .fault f → runFor (n + 1) s = .stuck f) ∧
    (∀ u, step t = .next u → u.run = .halted → runFor (n + 1) s = .halted u)
end

