-- ==== Sys2Proof/Laws/Device.lean ====
section
/-! SUPPORT. The device: what one call does, and that the free answers leave no sequence of answers out (20_memory.md
R50, R52; D22). -/

namespace Sys2Proof.Machine

open Sys2Proof.Config (Burst)

/-! ### One call -/

@[simp] theorem byteAbove_toNat (v : Fin 255) : (byteAbove v).toNat = v.val + 1 := by
  have h := v.isLt
  simp only [byteAbove, BitVec.toNat_ofNat]
  omega

theorem byteAbove_ne_zero (v : Fin 255) : byteAbove v ≠ 0x00#8 := by
  intro h
  have := congrArg BitVec.toNat h
  simp at this

@[simp] theorem Device.next_script (b : Byte) (rest : List Byte) (u : Burst) (q c : Nat) :
    Device.next { script := b :: rest, burst := u, source := q, calls := c } = some (b, { script := rest, burst := u, source := q, calls := c }) :=
  rfl

@[simp] theorem Device.next_pause (q c : Nat) :
    Device.next { script := [], burst := .zeroAfter 0, source := q, calls := c } =
      some (0x00#8, { script := [], burst := devBurst q (c + 1), source := q, calls := c + 1 }) := rfl

@[simp] theorem Device.next_silent (q c : Nat) :
    Device.next { script := [], burst := .silentAfter 0, source := q, calls := c } = none := rfl

@[simp] theorem Device.next_zeroAfter (n q c : Nat) :
    Device.next { script := [], burst := .zeroAfter (n + 1), source := q, calls := c } =
      some (byteAbove (devByte q c), { script := [], burst := .zeroAfter n, source := q, calls := c + 1 }) := rfl

@[simp] theorem Device.next_silentAfter (n q c : Nat) :
    Device.next { script := [], burst := .silentAfter (n + 1), source := q, calls := c } =
      some (byteAbove (devByte q c), { script := [], burst := .silentAfter n, source := q, calls := c + 1 }) := rfl

@[simp] theorem Device.next_forever (q c : Nat) :
    Device.next { script := [], burst := .forever, source := q, calls := c } =
      some (byteAbove (devByte q c), { script := [], burst := .forever, source := q, calls := c + 1 }) := rfl

/-- A call is never answered exactly in a device with no script whose burst has run into silence. -/
theorem Device.next_none_iff (d : Device) : Device.next d = none ↔ d.script = [] ∧ d.burst = .silentAfter 0 := by
  obtain ⟨script, burst, source, calls⟩ := d
  rcases script with _ | ⟨b, rest⟩
  · rcases burst with (_ | n) | (_ | n) | _ <;> simp
  · simp

/-! ### Every sequence of answers is one of the oracle's -/

/-- The answer to the call after the next `n`. -/
def Device.answer (bursts : Nat → Nat → Burst) (bytes : Nat → Nat → Fin 255) : Nat → Device → Option Byte
  | 0, d => (Device.nextOf bursts bytes d).map Prod.fst
  | n + 1, d =>
    match Device.nextOf bursts bytes d with
    | some (_, e) => Device.answer bursts bytes n e
    | none => none

/-- The burst that has one more byte before its pause. -/
def burstMore : Burst → Burst
  | .zeroAfter n => .zeroAfter (n + 1)
  | .silentAfter n => .silentAfter (n + 1)
  | .forever => .forever

/-- A sequence of answers falls into bursts: at each call the burst is read off that call's answer and the next burst. -/
theorem exists_bursts (f : Nat → Option Byte) :
    ∃ bursts : Nat → Burst, ∀ n, (f n = none → bursts n = .silentAfter 0) ∧
      (f n = some 0x00#8 → bursts n = .zeroAfter 0) ∧
      ∀ b, f n = some b → b ≠ 0x00#8 → bursts n = burstMore (bursts (n + 1)) := by
  classical
  let pause (n k : Nat) : Prop := f (n + k) = none ∨ f (n + k) = some 0x00#8
  have key (n : Nat) : ∃ u : Burst,
      (∀ k, pause n k → (∀ j, j < k → ¬ pause n j) → u = if f (n + k) = none then .silentAfter k else .zeroAfter k) ∧
        ((∀ k, ¬ pause n k) → u = .forever) := by
    by_cases h : ∃ k, pause n k
    · refine ⟨if f (n + Nat.find h) = none then .silentAfter (Nat.find h) else .zeroAfter (Nat.find h), ?_, ?_⟩
      · intro k hk hj
        rw [(Nat.find_eq_iff h).2 ⟨hk, hj⟩]
      · exact fun hn => absurd h (by simpa using hn)
    · exact ⟨.forever, fun k hk => absurd ⟨k, hk⟩ h, fun _ => rfl⟩
  choose bursts first never using key
  refine ⟨bursts, fun n => ⟨fun h => ?_, fun h => ?_, fun b h hb => ?_⟩⟩
  · simpa [h] using first n 0 (.inl h) (by simp)
  · simpa [h] using first n 0 (.inr h) (by simp)
  · have h0 : ¬ pause n 0 := by simp [pause, h, hb]
    have shift (k : Nat) : n + (k + 1) = n + 1 + k := by omega
    have later (k : Nat) : pause n (k + 1) ↔ pause (n + 1) k := by simp only [pause]; rw [shift k]
    by_cases hp : ∃ k, pause (n + 1) k
    · have hk := Nat.find_spec hp
      have hj : ∀ j, j < Nat.find hp → ¬ pause (n + 1) j := fun j => Nat.find_min hp
      rw [first (n + 1) _ hk hj, first n (Nat.find hp + 1) ((later _).2 hk) ?_, shift]
      · split <;> rfl
      · intro j hj'
        cases j with
        | zero => exact h0
        | succ j => exact fun h => hj j (by omega) ((later j).1 h)
    · have hn : ∀ k, ¬ pause (n + 1) k := fun k hk => hp ⟨k, hk⟩
      rw [never (n + 1) hn, never n ?_]
      · rfl
      · intro k
        cases k with
        | zero => exact h0
        | succ k => exact fun h => hn k ((later k).1 h)

/-- `DEV` is under no law: whatever each of any number of unrelated devices answers, call by call and up to a call it
never answers, is what the oracle answers for some value of its two free constants, one source to each device. -/
theorem every_answer_sequence (f : Nat → Nat → Option Byte) :
    ∃ bursts bytes, ∀ q n, (∀ k, k < n → f q k ≠ none) →
      Device.answer bursts bytes n { script := [], burst := bursts q 0, source := q, calls := 0 } = f q n := by
  choose bursts hb using fun q => exists_bursts (f q)
  let bytes (q n : Nat) : Fin 255 :=
    ⟨((f q n).getD 0x00#8).toNat - 1, by have := ((f q n).getD 0x00#8).isLt; omega⟩
  have byte_eq {q n : Nat} {b : Byte} (h : f q n = some b) (hz : b ≠ 0x00#8) : byteAbove (bytes q n) = b := by
    have hpos : b.toNat ≠ 0 := fun h0 => hz (BitVec.eq_of_toNat_eq (by simpa using h0))
    apply BitVec.eq_of_toNat_eq
    simp only [byteAbove_toNat, bytes, h, Option.getD_some]
    omega
  have one (q n : Nat) :
      Device.nextOf bursts bytes { script := [], burst := bursts q n, source := q, calls := n } =
        (f q n).map fun b => (b, { script := [], burst := bursts q (n + 1), source := q, calls := n + 1 }) := by
    obtain ⟨hs, hz, hm⟩ := hb q n
    rcases hf : f q n with _ | b
    · rw [hs hf]; rfl
    · by_cases h0 : b = 0x00#8
      · subst h0
        rw [hz hf]; rfl
      · rw [hm b hf h0]
        rcases hu : bursts q (n + 1) with k | k | _ <;>
          simp [burstMore, Device.nextOf, byte_eq hf h0]
  have from_call (q n : Nat) : ∀ m, (∀ k, k < n → f q (m + k) ≠ none) →
      Device.answer bursts bytes n { script := [], burst := bursts q m, source := q, calls := m } = f q (m + n) := by
    induction n with
    | zero =>
      intro m _
      rw [Device.answer, one]
      cases f q m <;> rfl
    | succ n ih =>
      intro m h
      have h0 : f q m ≠ none := h 0 (by omega)
      obtain ⟨b, hfm⟩ := Option.ne_none_iff_exists'.1 h0
      rw [Device.answer, one, hfm]
      show Device.answer bursts bytes n { script := [], burst := bursts q (m + 1), source := q, calls := m + 1 } = _
      rw [ih (m + 1) fun k hk => by simpa only [Nat.add_assoc, Nat.add_comm 1] using h (k + 1) (by omega)]
      congr 1; omega
  refine ⟨bursts, bytes, fun q n h => ?_⟩
  simpa using from_call q n 0 (by simpa using h)

end Sys2Proof.Machine
end

