-- ==== Sys2Proof/Laws/Memory.lean ====
section
/-! SUPPORT. Memory: a read after a write, and the canonical form that every memory operation keeps. -/

namespace Sys2Proof.Machine

/-! ### Read after write -/

theorem Memory.read_erase (m : Memory) (a b : Nat) :
    Memory.read (Memory.erase m a) b = if b = a then unlistedWord else Memory.read m b := by
  induction m with
  | nil => simp [Memory.erase, Memory.read]
  | cons e rest ih =>
    obtain ⟨k, w⟩ := e
    by_cases hk : k = a
    · subst hk
      by_cases hb : b = k
      · subst hb; simpa [Memory.erase] using ih
      · simp [Memory.erase, Memory.read, ih, hb, Ne.symm hb]
    · by_cases hb : b = a
      · subst hb; simp [Memory.erase, Memory.read, hk, ih]
      · simp [Memory.erase, Memory.read, hk, ih, hb]

theorem Memory.read_insert (m : Memory) (a b : Nat) (v : Word) :
    Memory.read (Memory.insert m a v) b = if b = a then v else Memory.read m b := by
  induction m with
  | nil => simp [Memory.insert, Memory.read, eq_comm]
  | cons e rest ih =>
    obtain ⟨k, w⟩ := e
    by_cases hlt : k < a
    · by_cases hb : b = a
      · subst hb; simp [Memory.insert, Memory.read, hlt, ih, hlt.ne]
      · simp [Memory.insert, Memory.read, hlt, ih, hb]
    · by_cases hk : k = a
      · subst hk
        by_cases hb : b = k
        · simp [Memory.insert, Memory.read, hb]
        · simp [Memory.insert, Memory.read, hb, Ne.symm hb]
      · by_cases hb : b = a
        · simp [Memory.insert, Memory.read, hlt, hk, hb]
        · simp [Memory.insert, Memory.read, hlt, hk, hb, Ne.symm hb]

theorem Memory.read_write (m : Memory) (a b : Nat) (v : Word) :
    Memory.read (Memory.write m a v) b = if b = a then v else Memory.read m b := by
  by_cases hv : v = unlistedWord
  · simp [Memory.write, hv, Memory.read_erase]
  · simp [Memory.write, hv, Memory.read_insert]

/-- A write to one cell, seen through the model's read of one cell. -/
theorem State.cell_memWrite (s : State) (a b v : Word) :
    (s.memWrite a v).cell b = if b = a then v else s.cell b := by
  simp [State.cell, State.memWrite, Memory.read_write, BitVec.toNat_inj]

/-! ### The canonical form -/

theorem Memory.wfFrom_mono {m : Memory} {lo hi : Nat} (h : Memory.wfFrom hi m = true) (hle : lo ≤ hi) :
    Memory.wfFrom lo m = true := by
  cases m with
  | nil => rfl
  | cons e rest =>
    obtain ⟨k, w⟩ := e
    simp only [Memory.wfFrom, Bool.and_eq_true, decide_eq_true_eq] at h ⊢
    exact ⟨⟨⟨by omega, h.1.1.2⟩, h.1.2⟩, h.2⟩

theorem Memory.wfFrom_erase {m : Memory} {lo : Nat} (a : Nat) (h : Memory.wfFrom lo m = true) :
    Memory.wfFrom lo (Memory.erase m a) = true := by
  induction m generalizing lo with
  | nil => rfl
  | cons e rest ih =>
    obtain ⟨k, w⟩ := e
    simp only [Memory.wfFrom, Bool.and_eq_true, decide_eq_true_eq] at h
    by_cases hk : k = a
    · simpa [Memory.erase, hk] using ih (Memory.wfFrom_mono h.2 (by omega))
    · simp only [Memory.erase, hk, if_false, Memory.wfFrom, Bool.and_eq_true, decide_eq_true_eq]
      exact ⟨h.1, ih h.2⟩

theorem Memory.wfFrom_insert {m : Memory} {lo a : Nat} {v : Word} (hlo : lo ≤ a) (ha : a < 65536)
    (hv : v ≠ unlistedWord) (h : Memory.wfFrom lo m = true) : Memory.wfFrom lo (Memory.insert m a v) = true := by
  induction m generalizing lo with
  | nil => simp [Memory.insert, Memory.wfFrom, hlo, ha, hv]
  | cons e rest ih =>
    obtain ⟨k, w⟩ := e
    have hcons := h
    simp only [Memory.wfFrom, Bool.and_eq_true, decide_eq_true_eq, bne_iff_ne] at h
    by_cases hlt : k < a
    · simp only [Memory.insert, hlt, if_true, Memory.wfFrom, Bool.and_eq_true, decide_eq_true_eq, bne_iff_ne]
      exact ⟨h.1, ih hlt h.2⟩
    · by_cases hk : k = a
      · subst hk
        simp only [Memory.insert, hlt, if_false, if_true, Memory.wfFrom, Bool.and_eq_true, decide_eq_true_eq,
          bne_iff_ne]
        exact ⟨⟨⟨hlo, ha⟩, hv⟩, h.2⟩
      · simp only [Memory.insert, hlt, hk, if_false, Memory.wfFrom, Bool.and_eq_true, decide_eq_true_eq, bne_iff_ne]
        exact ⟨⟨⟨hlo, ha⟩, hv⟩, ⟨⟨⟨by omega, h.1.1.2⟩, h.1.2⟩, h.2⟩⟩

/-- A write at an address of the machine keeps the canonical form. -/
theorem Memory.wf_write {m : Memory} {a : Nat} (v : Word) (ha : a < 65536) (h : Memory.wf m = true) :
    Memory.wf (Memory.write m a v) = true := by
  by_cases hv : v = unlistedWord
  · rw [Memory.write, if_pos hv]
    exact Memory.wfFrom_erase a h
  · rw [Memory.write, if_neg hv]
    exact Memory.wfFrom_insert (Nat.zero_le a) ha hv h

theorem State.wf_memWrite {s : State} (a v : Word) (h : Memory.wf s.mem = true) :
    Memory.wf (s.memWrite a v).mem = true := Memory.wf_write v a.isLt h

/-- Writing payload words keeps the canonical form while they stay inside the machine. -/
theorem Memory.wf_writeWords {m : Memory} {a : Nat} {ws : List Word} (hend : a + ws.length ≤ 65536)
    (h : Memory.wf m = true) : Memory.wf (Memory.writeWords m a ws) = true := by
  induction ws generalizing m a with
  | nil => exact h
  | cons w rest ih =>
    simp only [List.length_cons] at hend
    exact ih (by omega) (Memory.wf_write w (by omega) h)

/-- What a cell reads after the payload is written: its payload word, or what it read before. -/
theorem Memory.read_writeWords (m : Memory) (a b : Nat) (ws : List Word) :
    Memory.read (Memory.writeWords m a ws) b =
      if h : a ≤ b ∧ b < a + ws.length then ws[b - a]'(by omega) else Memory.read m b := by
  induction ws generalizing m a with
  | nil => simp [Memory.writeWords]
  | cons w rest ih =>
    simp only [Memory.writeWords, ih, Memory.read_write, List.length_cons]
    by_cases hb : b = a
    · subst hb; simp
    · by_cases hin : a + 1 ≤ b ∧ b < a + 1 + rest.length
      · have h2 : a ≤ b ∧ b < a + (rest.length + 1) := by omega
        have h3 : b - a = (b - (a + 1)) + 1 := by omega
        simp [hin, h2, h3]
      · have h2 : ¬(a ≤ b ∧ b < a + (rest.length + 1)) := by omega
        simp only [dif_neg hin, dif_neg h2, if_neg hb]

theorem Memory.read_below {m : Memory} {lo b : Nat} (h : Memory.wfFrom lo m = true) (hb : b < lo) :
    Memory.read m b = unlistedWord := by
  induction m generalizing lo with
  | nil => rfl
  | cons e rest ih =>
    obtain ⟨k, w⟩ := e
    simp only [Memory.wfFrom, Bool.and_eq_true, decide_eq_true_eq] at h
    have hne : k ≠ b := by omega
    simpa [Memory.read, hne] using ih h.2 (by omega)

/-- The form is canonical: two memories in it that read alike are the same list. -/
theorem Memory.ext_of_wfFrom {m n : Memory} {lo : Nat} (hm : Memory.wfFrom lo m = true)
    (hn : Memory.wfFrom lo n = true) (h : ∀ a, Memory.read m a = Memory.read n a) : m = n := by
  induction m generalizing n lo with
  | nil =>
    cases n with
    | nil => rfl
    | cons e rest =>
      obtain ⟨k, w⟩ := e
      have hk := h k
      simp [Memory.read] at hk
      simp [Memory.wfFrom, ← hk] at hn
  | cons e rest ih =>
    obtain ⟨k, w⟩ := e
    cases n with
    | nil =>
      have hk := h k
      simp [Memory.read] at hk
      simp [Memory.wfFrom, hk] at hm
    | cons f rest' =>
      obtain ⟨j, u⟩ := f
      simp only [Memory.wfFrom, Bool.and_eq_true, decide_eq_true_eq, bne_iff_ne] at hm hn
      have hkj : k = j := by
        rcases lt_trichotomy k j with hlt | heq | hgt
        · have hk := h k
          simp only [Memory.read, if_true, if_neg (show j ≠ k by omega)] at hk
          exact absurd (hk.trans (Memory.read_below hn.2 (by omega))) hm.1.2
        · exact heq
        · have hj := h j
          simp only [Memory.read, if_true, if_neg (show k ≠ j by omega)] at hj
          exact absurd (hj.symm.trans (Memory.read_below hm.2 (by omega))) hn.1.2
      subst hkj
      have hw : w = u := by simpa [Memory.read] using h k
      subst hw
      rw [ih hm.2 hn.2 fun a => ?_]
      by_cases ha : k = a
      · rw [Memory.read_below hm.2 (by omega), Memory.read_below hn.2 (by omega)]
      · simpa [Memory.read, ha] using h a

theorem Memory.ext_of_wf {m n : Memory} (hm : Memory.wf m = true) (hn : Memory.wf n = true)
    (h : ∀ a, Memory.read m a = Memory.read n a) : m = n := Memory.ext_of_wfFrom hm hn h

end Sys2Proof.Machine
end

