-- ==== Sys2Proof/Laws/State.lean ====
section
/-! SUPPORT. One lemma per field per update of State, so that no later proof unfolds a record update. -/

namespace Sys2Proof.Machine

/-! ### setReg -/

@[simp] theorem State.setReg_x (s : State) (r : Reg) (v : Word) : (s.setReg r v).x = s.x.set r.val v := rfl
@[simp] theorem State.setReg_pc (s : State) (r : Reg) (v : Word) : (s.setReg r v).pc = s.pc := rfl
@[simp] theorem State.setReg_cond (s : State) (r : Reg) (v : Word) : (s.setReg r v).cond = s.cond := rfl
@[simp] theorem State.setReg_mem (s : State) (r : Reg) (v : Word) : (s.setReg r v).mem = s.mem := rfl
@[simp] theorem State.setReg_run (s : State) (r : Reg) (v : Word) : (s.setReg r v).run = s.run := rfl
@[simp] theorem State.setReg_out (s : State) (r : Reg) (v : Word) : (s.setReg r v).out = s.out := rfl
@[simp] theorem State.setReg_dev (s : State) (r : Reg) (v : Word) : (s.setReg r v).dev = s.dev := rfl

/-! ### setPc -/

@[simp] theorem State.setPc_x (s : State) (v : Word) : (s.setPc v).x = s.x := rfl
@[simp] theorem State.setPc_pc (s : State) (v : Word) : (s.setPc v).pc = v := rfl
@[simp] theorem State.setPc_cond (s : State) (v : Word) : (s.setPc v).cond = s.cond := rfl
@[simp] theorem State.setPc_mem (s : State) (v : Word) : (s.setPc v).mem = s.mem := rfl
@[simp] theorem State.setPc_run (s : State) (v : Word) : (s.setPc v).run = s.run := rfl
@[simp] theorem State.setPc_out (s : State) (v : Word) : (s.setPc v).out = s.out := rfl
@[simp] theorem State.setPc_dev (s : State) (v : Word) : (s.setPc v).dev = s.dev := rfl

/-! ### setcc -/

@[simp] theorem State.setcc_x (s : State) (v : Word) : (s.setcc v).x = s.x := rfl
@[simp] theorem State.setcc_pc (s : State) (v : Word) : (s.setcc v).pc = s.pc := rfl
@[simp] theorem State.setcc_cond (s : State) (v : Word) : (s.setcc v).cond = condOf v := rfl
@[simp] theorem State.setcc_mem (s : State) (v : Word) : (s.setcc v).mem = s.mem := rfl
@[simp] theorem State.setcc_run (s : State) (v : Word) : (s.setcc v).run = s.run := rfl
@[simp] theorem State.setcc_out (s : State) (v : Word) : (s.setcc v).out = s.out := rfl
@[simp] theorem State.setcc_dev (s : State) (v : Word) : (s.setcc v).dev = s.dev := rfl

/-! ### setHalted -/

@[simp] theorem State.setHalted_x (s : State) : s.setHalted.x = s.x := rfl
@[simp] theorem State.setHalted_pc (s : State) : s.setHalted.pc = s.pc := rfl
@[simp] theorem State.setHalted_cond (s : State) : s.setHalted.cond = s.cond := rfl
@[simp] theorem State.setHalted_mem (s : State) : s.setHalted.mem = s.mem := rfl
@[simp] theorem State.setHalted_run (s : State) : s.setHalted.run = .halted := rfl
@[simp] theorem State.setHalted_out (s : State) : s.setHalted.out = s.out := rfl
@[simp] theorem State.setHalted_dev (s : State) : s.setHalted.dev = s.dev := rfl

/-! ### memWrite -/

@[simp] theorem State.memWrite_x (s : State) (a v : Word) : (s.memWrite a v).x = s.x := rfl
@[simp] theorem State.memWrite_pc (s : State) (a v : Word) : (s.memWrite a v).pc = s.pc := rfl
@[simp] theorem State.memWrite_cond (s : State) (a v : Word) : (s.memWrite a v).cond = s.cond := rfl
@[simp] theorem State.memWrite_mem (s : State) (a v : Word) : (s.memWrite a v).mem = Memory.write s.mem a.toNat v := rfl
@[simp] theorem State.memWrite_run (s : State) (a v : Word) : (s.memWrite a v).run = s.run := rfl
@[simp] theorem State.memWrite_out (s : State) (a v : Word) : (s.memWrite a v).out = s.out := rfl
@[simp] theorem State.memWrite_dev (s : State) (a v : Word) : (s.memWrite a v).dev = s.dev := rfl

/-! ### emit -/

@[simp] theorem State.emit_x (s : State) (bytes : List Byte) : (s.emit bytes).x = s.x := rfl
@[simp] theorem State.emit_pc (s : State) (bytes : List Byte) : (s.emit bytes).pc = s.pc := rfl
@[simp] theorem State.emit_cond (s : State) (bytes : List Byte) : (s.emit bytes).cond = s.cond := rfl
@[simp] theorem State.emit_mem (s : State) (bytes : List Byte) : (s.emit bytes).mem = s.mem := rfl
@[simp] theorem State.emit_run (s : State) (bytes : List Byte) : (s.emit bytes).run = s.run := rfl
@[simp] theorem State.emit_out (s : State) (bytes : List Byte) : (s.emit bytes).out = s.out ++ bytes := rfl
@[simp] theorem State.emit_dev (s : State) (bytes : List Byte) : (s.emit bytes).dev = s.dev := rfl

/-! ### Register reads -/

@[simp] theorem State.setReg_reg_same (s : State) (r : Reg) (v : Word) : (s.setReg r v).reg r = v := by
  simp [State.reg]

theorem State.setReg_reg_other (s : State) {r q : Reg} (v : Word) (h : q ≠ r) : (s.setReg r v).reg q = s.reg q := by
  have h' : r.val ≠ q.val := fun e => h (Fin.ext e.symm)
  simp [State.reg, h']

theorem State.setReg_reg (s : State) (r q : Reg) (v : Word) :
    (s.setReg r v).reg q = if q = r then v else s.reg q := by
  by_cases h : q = r
  · subst h; simp
  · simp [h, State.setReg_reg_other s v h]

@[simp] theorem State.setPc_reg (s : State) (v : Word) (q : Reg) : (s.setPc v).reg q = s.reg q := rfl
@[simp] theorem State.setcc_reg (s : State) (v : Word) (q : Reg) : (s.setcc v).reg q = s.reg q := rfl
@[simp] theorem State.setHalted_reg (s : State) (q : Reg) : s.setHalted.reg q = s.reg q := rfl
@[simp] theorem State.memWrite_reg (s : State) (a v : Word) (q : Reg) : (s.memWrite a v).reg q = s.reg q := rfl
@[simp] theorem State.emit_reg (s : State) (bytes : List Byte) (q : Reg) : (s.emit bytes).reg q = s.reg q := rfl

/-! ### Cell reads -/

@[simp] theorem State.setReg_cell (s : State) (r : Reg) (v a : Word) : (s.setReg r v).cell a = s.cell a := rfl
@[simp] theorem State.setPc_cell (s : State) (v a : Word) : (s.setPc v).cell a = s.cell a := rfl
@[simp] theorem State.setcc_cell (s : State) (v a : Word) : (s.setcc v).cell a = s.cell a := rfl
@[simp] theorem State.setHalted_cell (s : State) (a : Word) : s.setHalted.cell a = s.cell a := rfl
@[simp] theorem State.emit_cell (s : State) (bytes : List Byte) (a : Word) : (s.emit bytes).cell a = s.cell a := rfl

/-! ### The write that updates the flags -/

@[simp] theorem State.setRegCc_x (s : State) (r : Reg) (v : Word) : (s.setRegCc r v).x = s.x.set r.val v := rfl
@[simp] theorem State.setRegCc_pc (s : State) (r : Reg) (v : Word) : (s.setRegCc r v).pc = s.pc := rfl
@[simp] theorem State.setRegCc_cond (s : State) (r : Reg) (v : Word) : (s.setRegCc r v).cond = condOf v := rfl
@[simp] theorem State.setRegCc_mem (s : State) (r : Reg) (v : Word) : (s.setRegCc r v).mem = s.mem := rfl
@[simp] theorem State.setRegCc_run (s : State) (r : Reg) (v : Word) : (s.setRegCc r v).run = s.run := rfl
@[simp] theorem State.setRegCc_out (s : State) (r : Reg) (v : Word) : (s.setRegCc r v).out = s.out := rfl
@[simp] theorem State.setRegCc_dev (s : State) (r : Reg) (v : Word) : (s.setRegCc r v).dev = s.dev := rfl
@[simp] theorem State.setRegCc_cell (s : State) (r : Reg) (v a : Word) : (s.setRegCc r v).cell a = s.cell a := rfl

theorem State.setRegCc_reg (s : State) (r q : Reg) (v : Word) :
    (s.setRegCc r v).reg q = if q = r then v else s.reg q := State.setReg_reg s r q v

/-! ### Trap entry -/

@[simp] theorem State.trapEntry_pc (saves : Bool) (s : State) : (s.trapEntry saves).pc = s.pc := rfl
@[simp] theorem State.trapEntry_cond (saves : Bool) (s : State) : (s.trapEntry saves).cond = s.cond := rfl
@[simp] theorem State.trapEntry_mem (saves : Bool) (s : State) : (s.trapEntry saves).mem = s.mem := rfl
@[simp] theorem State.trapEntry_run (saves : Bool) (s : State) : (s.trapEntry saves).run = s.run := rfl
@[simp] theorem State.trapEntry_out (saves : Bool) (s : State) : (s.trapEntry saves).out = s.out := rfl
@[simp] theorem State.trapEntry_dev (saves : Bool) (s : State) : (s.trapEntry saves).dev = s.dev := rfl
@[simp] theorem State.trapEntry_cell (saves : Bool) (s : State) (a : Word) : (s.trapEntry saves).cell a = s.cell a := rfl

theorem State.trapEntry_reg (saves : Bool) (s : State) (q : Reg) :
    (s.trapEntry saves).reg q = if q = 7 then (if saves then s.pc else s.reg 7) else s.reg q :=
  State.setReg_reg s 7 q _

end Sys2Proof.Machine
end

