-- ==== Sys2Proof/Laws/Ops.lean ====
section
/-! SUPPORT. One lemma per shared operation that says everything it can do; later proofs cite these instead of
unfolding the operations. -/

namespace Sys2Proof.Machine

/-! ### Bytes and words -/

@[simp] theorem zext16_toNat (b : Byte) : (zext16 b).toNat = b.toNat := by
  rw [zext16, BitVec.toNat_append]
  simp

theorem lo8_eq_setWidth (w : Word) : lo8 w = w.setWidth 8 := by
  apply BitVec.eq_of_toNat_eq
  simp [lo8]

theorem hi8_eq_setWidth (w : Word) : hi8 w = (w >>> 8).setWidth 8 := by
  apply BitVec.eq_of_toNat_eq
  simp [hi8]

theorem hi8_eq_zero_iff (w : Word) : hi8 w = 0x00#8 ↔ w.toNat < 256 := by
  have hw := w.isLt
  rw [← BitVec.toNat_inj, hi8, BitVec.extractLsb'_toNat, Nat.shiftRight_eq_div_pow, BitVec.toNat_ofNat]
  omega

/-! ### The keyboard and the one-word read -/

theorem kbsrAddr_eq : kbsrAddr = 0xFE00#16 := rfl

theorem kbdrAddr_eq : kbdrAddr = 0xFE02#16 := rfl

theorem kbsrAddr_ne_kbdrAddr : kbsrAddr ≠ kbdrAddr := by decide

theorem State.keyboardWrite_idle (s : State) : s.keyboardWrite 0x00#8 = s.memWrite kbsrAddr 0x0000#16 := if_pos rfl

theorem State.keyboardWrite_ready (s : State) {b : Byte} (h : b ≠ 0x00#8) :
    s.keyboardWrite b = (s.memWrite kbsrAddr 0x8000#16).memWrite kbdrAddr (zext16 b) := if_neg h

/-- What every cell reads after a poll that the device answered with `b`. -/
theorem State.keyboardWrite_cell (s : State) (b : Byte) (a : Word) :
    (s.keyboardWrite b).cell a =
      if a = kbsrAddr then (if b = 0x00#8 then 0x0000#16 else 0x8000#16)
      else if a = kbdrAddr ∧ b ≠ 0x00#8 then zext16 b else s.cell a := by
  by_cases hb : b = 0x00#8
  · subst hb
    simp [State.keyboardWrite_idle, State.cell_memWrite]
  · rw [State.keyboardWrite_ready s hb, State.cell_memWrite, State.cell_memWrite]
    by_cases h1 : a = kbsrAddr
    · simp [h1, kbsrAddr_ne_kbdrAddr, hb]
    · simp [h1, hb]

theorem State.memRead_plain (s : State) {a : Word} (h : a ≠ kbsrAddr) : s.memRead a = some (s.cell a, s) := by
  simp [State.memRead, h]

theorem State.memRead_keyboard (s : State) :
    s.memRead kbsrAddr =
      (Device.next s.dev).map fun bd =>
        (({ s with dev := bd.2 } : State).keyboardWrite bd.1 |>.cell kbsrAddr,
          ({ s with dev := bd.2 } : State).keyboardWrite bd.1) := by
  rcases h : Device.next s.dev with _ | ⟨b, d⟩ <;> simp [State.memRead, State.keyboardPoll, State.devRead, h]

/-- What a read can do to the state: nothing outside memory and the device; the canonical form is kept; only the two
keyboard cells may read otherwise than before. -/
theorem State.memRead_frame {s s1 : State} {a v : Word} (h : s.memRead a = some (v, s1)) :
    s1.x = s.x ∧ s1.pc = s.pc ∧ s1.cond = s.cond ∧ s1.run = s.run ∧ s1.out = s.out ∧
      (Memory.wf s.mem = true → Memory.wf s1.mem = true) ∧
      (∀ b, b ≠ kbsrAddr → b ≠ kbdrAddr → s1.cell b = s.cell b) ∧ (a ≠ kbsrAddr → s1 = s) := by
  by_cases ha : a = kbsrAddr
  · subst ha
    rw [State.memRead_keyboard] at h
    rcases hd : Device.next s.dev with _ | ⟨b, d⟩
    · simp [hd] at h
    · simp only [hd, Option.map_some, Option.some.injEq, Prod.mk.injEq] at h
      obtain ⟨-, rfl⟩ := h
      by_cases hb : b = 0x00#8
      · simp only [State.keyboardWrite, hb, if_true]
        exact ⟨rfl, rfl, rfl, rfl, rfl, fun hw => State.wf_memWrite _ _ hw,
          fun c h1 _ => by rw [State.cell_memWrite, if_neg h1]; rfl, fun h => absurd rfl h⟩
      · simp only [State.keyboardWrite, hb, if_false]
        exact ⟨rfl, rfl, rfl, rfl, rfl, fun hw => State.wf_memWrite _ _ (State.wf_memWrite _ _ hw),
          fun c h1 h2 => by rw [State.cell_memWrite, if_neg h2, State.cell_memWrite, if_neg h1]; rfl,
          fun h => absurd rfl h⟩
  · rw [State.memRead_plain s ha] at h
    simp only [Option.some.injEq, Prod.mk.injEq] at h
    obtain ⟨-, rfl⟩ := h
    exact ⟨rfl, rfl, rfl, rfl, rfl, id, fun _ _ _ => rfl, fun _ => rfl⟩

theorem State.readThen_of_memRead {s s1 : State} {a v : Word} (k : Word → State → Result)
    (h : s.memRead a = some (v, s1)) : s.readThen a k = k v s1 := by
  simp [State.readThen, h]

/-- A read then a continuation goes on only through an answered read. -/
theorem State.readThen_next {s t : State} {a : Word} {k : Word → State → Result} (h : s.readThen a k = .next t) :
    ∃ v s1, s.memRead a = some (v, s1) ∧ k v s1 = .next t := by
  rcases hm : s.memRead a with _ | ⟨v, s1⟩
  · simp [State.readThen, hm] at h
  · exact ⟨v, s1, rfl, by simpa [State.readThen, hm] using h⟩

/-- A read then a continuation stops because the device is silent or as the continuation does. -/
theorem State.readThen_fault {s : State} {a : Word} {k : Word → State → Result} {f : Fault}
    (h : s.readThen a k = .fault f) :
    (f = .deviceSilent ∧ s.memRead a = none) ∨ ∃ v s1, s.memRead a = some (v, s1) ∧ k v s1 = .fault f := by
  rcases hm : s.memRead a with _ | ⟨v, s1⟩
  · simp only [State.readThen, hm, Host.Outcome.fault.injEq] at h
    exact .inl ⟨h.symm, rfl⟩
  · exact .inr ⟨v, s1, rfl, by simpa [State.readThen, hm] using h⟩

/-- A wait for input goes on only with an answer, and takes that one answer. -/
theorem State.inputThen_next {s t : State} {k : Byte → State → Result} (h : s.inputThen k = .next t) :
    ∃ b d, Device.next s.dev = some (b, d) ∧ k b { s with dev := d } = .next t := by
  rcases hd : Device.next s.dev with _ | ⟨b, d⟩
  · simp [State.inputThen, State.devRead, hd] at h
  · exact ⟨b, d, rfl, by simpa [State.inputThen, State.devRead, hd] using h⟩

/-! ### Strings -/

theorem stringLoop_stop {bytes : Word → List Byte} {n : Nat} {a : Word} {s s1 : State}
    (h : s.memRead a = some (0x0000#16, s1)) : stringLoop bytes (n + 1) a s = .next s1 := by
  rw [stringLoop, State.readThen_of_memRead _ h, if_pos rfl]

theorem stringLoop_go {bytes : Word → List Byte} {n : Nat} {a w : Word} {s s1 : State}
    (h : s.memRead a = some (w, s1)) (hw : w ≠ 0x0000#16) :
    stringLoop bytes (n + 1) a s = stringLoop bytes n (a + 1#16) (s1.emit (bytes w)) := by
  rw [stringLoop, State.readThen_of_memRead _ h, if_neg hw]

theorem stringLoop_silent {bytes : Word → List Byte} {n : Nat} {a : Word} {s : State}
    (h : s.memRead a = none) : stringLoop bytes (n + 1) a s = .fault .deviceSilent := by
  simp [stringLoop, State.readThen, h]

/-- A larger allowance changes no string that ends. -/
theorem stringLoop_mono {bytes : Word → List Byte} {n m : Nat} {a : Word} {s t : State}
    (h : stringLoop bytes n a s = .next t) (hnm : n ≤ m) : stringLoop bytes m a s = .next t := by
  induction n generalizing a s m with
  | zero => simp [stringLoop] at h
  | succ n ih =>
    obtain ⟨m, rfl⟩ : ∃ k, m = k + 1 := ⟨m - 1, by omega⟩
    obtain ⟨w, s1, hm, hk⟩ := State.readThen_next h
    by_cases h0 : w = 0x0000#16
    · subst h0
      rwa [if_pos rfl, ← stringLoop_stop hm] at hk
    · rw [if_neg h0] at hk
      rw [stringLoop_go hm h0]
      exact ih hk (by omega)

/-- What a string routine can do: nothing to registers, `pc`, flags and run state; `out` grows at its end; the
canonical form is kept; only the two keyboard cells may read otherwise than before. -/
theorem stringLoop_next {bytes : Word → List Byte} {n : Nat} {a : Word} {s t : State}
    (h : stringLoop bytes n a s = .next t) :
    t.x = s.x ∧ t.pc = s.pc ∧ t.cond = s.cond ∧ t.run = s.run ∧ (∃ o, t.out = s.out ++ o) ∧
      (Memory.wf s.mem = true → Memory.wf t.mem = true) ∧
      (∀ b, b ≠ kbsrAddr → b ≠ kbdrAddr → t.cell b = s.cell b) := by
  induction n generalizing a s with
  | zero => simp [stringLoop] at h
  | succ n ih =>
    obtain ⟨w, s1, hm, hk⟩ := State.readThen_next h
    obtain ⟨hx, hpc, hc, hr, ho, hw, hcell, -⟩ := State.memRead_frame hm
    by_cases h0 : w = 0x0000#16
    · simp only [h0, if_true, Host.Outcome.next.injEq] at hk
      subst hk
      exact ⟨hx, hpc, hc, hr, ⟨[], by simp [ho]⟩, hw, hcell⟩
    · simp only [h0, if_false] at hk
      obtain ⟨hx', hpc', hc', hr', ⟨o, ho'⟩, hw', hcell'⟩ := ih hk
      refine ⟨hx'.trans hx, hpc'.trans hpc, hc'.trans hc, hr'.trans hr, ⟨bytes w ++ o, ?_⟩, fun h => hw' (hw h),
        fun b h1 h2 => (hcell' b h1 h2).trans (hcell b h1 h2)⟩
      rw [ho', State.emit_out, ho, List.append_assoc]

/-- A string routine never refuses, and stops only in the two ways of a step that never completes. -/
theorem stringLoop_stops {bytes : Word → List Byte} {n : Nat} {a : Word} {s : State} :
    (∃ t, stringLoop bytes n a s = .next t) ∨ stringLoop bytes n a s = .fault .deviceSilent ∨
      stringLoop bytes n a s = .fault .stringEndless := by
  induction n generalizing a s with
  | zero => exact .inr (.inr rfl)
  | succ n ih =>
    rcases hm : s.memRead a with _ | ⟨w, s1⟩
    · exact .inr (.inl (stringLoop_silent hm))
    · by_cases h0 : w = 0x0000#16
      · subst h0
        exact .inl ⟨s1, stringLoop_stop hm⟩
      · rw [stringLoop_go hm h0]
        exact ih

/-! ### The fetch -/

/-- A fetch goes on only with an answered read, and then with the next address in `pc` (or 0 under `wrap`). -/
theorem State.fetchThen_next {policy : Sys2Proof.Config.PcWrapPolicy} {s t : State} {k : Word → State → Result}
    (h : s.fetchThen policy k = .next t) :
    ∃ ir s1, s.memRead s.pc = some (ir, s1) ∧ k ir (s1.setPc (s.pc + 1#16)) = .next t ∧
      (s.pc = 0xFFFF#16 → policy = .wrap) := by
  obtain ⟨ir, s1, hm, hk⟩ := State.readThen_next h
  refine ⟨ir, s1, hm, ?_⟩
  by_cases hpc : s.pc = 0xFFFF#16
  · cases policy with
    | fault => simp [hpc] at hk
    | wrap =>
      simp only [hpc, if_true] at hk
      exact ⟨by simpa [hpc] using hk, fun _ => rfl⟩
  · simp only [hpc, if_false] at hk
    exact ⟨hk, fun h => absurd h hpc⟩

/-! ### Flags -/

theorem condOf_cases (v : Word) : condOf v = 0b100#3 ∨ condOf v = 0b010#3 ∨ condOf v = 0b001#3 := by
  unfold condOf
  split
  · exact .inr (.inl rfl)
  · split
    · exact .inl rfl
    · exact .inr (.inr rfl)

end Sys2Proof.Machine
end

