-- ==== Sys2Proof/Laws/PerInstr.lean ====
section
/-! SUPPORT. Statements made of every instruction, one lemma per constructor: the word of an instruction lies in the row of
spec/opcode_table.json that its constructor stands for (30_encoding.md R72). -/

namespace Sys2Proof.Laws

/-- Two words are one when their sixteen bits are. -/
theorem word_ext {v w : Word} (h : ∀ i, i < 16 → v.getLsbD i = w.getLsbD i) : v = w :=
  BitVec.eq_of_getLsbD_eq fun i hi => h i hi

/-- A bit of laid-out fields is that bit of the fields. -/
theorem getLsbD_word {n : Nat} (fields : BitVec n) (h : n = 16) (i : Nat) :
    (word fields h).getLsbD i = fields.getLsbD i := by
  subst h; rfl

@[simp] theorem regOf_regBits (r : Reg) : regOf (regBits r) = r := rfl

@[simp] theorem regBits_regOf (b : BitVec 3) : regBits (regOf b) = b := rfl

/-- The word of the instruction has the fixed bits of its row. -/
def TableRow.Statement (i : Instr) : Prop := encode i &&& i.row.mask = i.row.pattern

theorem TableRow.br (nzp : BitVec 3) (off : BitVec 9) : TableRow.Statement (.br nzp off) := by
  apply word_ext
  intro i hi
  simp only [encode, Instr.row, getLsbD_word, BitVec.getLsbD_append, BitVec.getLsbD_and]
  interval_cases i <;> simp

theorem TableRow.addReg (dr sr1 sr2 : Reg) (spare : BitVec 2) : TableRow.Statement (.addReg dr sr1 sr2 spare) := by
  apply word_ext
  intro i hi
  simp only [encode, Instr.row, getLsbD_word, BitVec.getLsbD_append, BitVec.getLsbD_and]
  interval_cases i <;> simp

theorem TableRow.addImm (dr sr1 : Reg) (imm5 : BitVec 5) : TableRow.Statement (.addImm dr sr1 imm5) := by
  apply word_ext
  intro i hi
  simp only [encode, Instr.row, getLsbD_word, BitVec.getLsbD_append, BitVec.getLsbD_and]
  interval_cases i <;> simp

theorem TableRow.ld (dr : Reg) (off : BitVec 9) : TableRow.Statement (.ld dr off) := by
  apply word_ext
  intro i hi
  simp only [encode, Instr.row, getLsbD_word, BitVec.getLsbD_append, BitVec.getLsbD_and]
  interval_cases i <;> simp

theorem TableRow.st (spare : BitVec 3) (off : BitVec 9) : TableRow.Statement (.st spare off) := by
  apply word_ext
  intro i hi
  simp only [encode, Instr.row, getLsbD_word, BitVec.getLsbD_append, BitVec.getLsbD_and]
  interval_cases i <;> simp

theorem TableRow.jsr (off : BitVec 11) : TableRow.Statement (.jsr off) := by
  apply word_ext
  intro i hi
  simp only [encode, Instr.row, getLsbD_word, BitVec.getLsbD_append, BitVec.getLsbD_and]
  interval_cases i <;> simp

theorem TableRow.jsrr (base : Reg) (spareHi : BitVec 2) (spareLo : BitVec 6) : TableRow.Statement (.jsrr base spareHi spareLo) := by
  apply word_ext
  intro i hi
  simp only [encode, Instr.row, getLsbD_word, BitVec.getLsbD_append, BitVec.getLsbD_and]
  interval_cases i <;> simp

theorem TableRow.andReg (dr sr1 sr2 : Reg) (spare : BitVec 2) : TableRow.Statement (.andReg dr sr1 sr2 spare) := by
  apply word_ext
  intro i hi
  simp only [encode, Instr.row, getLsbD_word, BitVec.getLsbD_append, BitVec.getLsbD_and]
  interval_cases i <;> simp

theorem TableRow.andImm (dr sr1 : Reg) (imm5 : BitVec 5) : TableRow.Statement (.andImm dr sr1 imm5) := by
  apply word_ext
  intro i hi
  simp only [encode, Instr.row, getLsbD_word, BitVec.getLsbD_append, BitVec.getLsbD_and]
  interval_cases i <;> simp

theorem TableRow.ldr (dr base : Reg) (off : BitVec 6) : TableRow.Statement (.ldr dr base off) := by
  apply word_ext
  intro i hi
  simp only [encode, Instr.row, getLsbD_word, BitVec.getLsbD_append, BitVec.getLsbD_and]
  interval_cases i <;> simp

theorem TableRow.str (sr base : Reg) (off : BitVec 6) : TableRow.Statement (.str sr base off) := by
  apply word_ext
  intro i hi
  simp only [encode, Instr.row, getLsbD_word, BitVec.getLsbD_append, BitVec.getLsbD_and]
  interval_cases i <;> simp

theorem TableRow.rti (spare : BitVec 12) : TableRow.Statement (.rti spare) := by
  apply word_ext
  intro i hi
  simp only [encode, Instr.row, getLsbD_word, BitVec.getLsbD_append, BitVec.getLsbD_and]
  interval_cases i <;> simp

theorem TableRow.notReg (dr sr1 : Reg) (spare : BitVec 6) : TableRow.Statement (.notReg dr sr1 spare) := by
  apply word_ext
  intro i hi
  simp only [encode, Instr.row, getLsbD_word, BitVec.getLsbD_append, BitVec.getLsbD_and]
  interval_cases i <;> simp

theorem TableRow.ldi (dr : Reg) (off : BitVec 9) : TableRow.Statement (.ldi dr off) := by
  apply word_ext
  intro i hi
  simp only [encode, Instr.row, getLsbD_word, BitVec.getLsbD_append, BitVec.getLsbD_and]
  interval_cases i <;> simp

theorem TableRow.sti (sr : Reg) (off : BitVec 9) : TableRow.Statement (.sti sr off) := by
  apply word_ext
  intro i hi
  simp only [encode, Instr.row, getLsbD_word, BitVec.getLsbD_append, BitVec.getLsbD_and]
  interval_cases i <;> simp

theorem TableRow.jmp (base : Reg) (spareHi : BitVec 3) (spareLo : BitVec 6) : TableRow.Statement (.jmp base spareHi spareLo) := by
  apply word_ext
  intro i hi
  simp only [encode, Instr.row, getLsbD_word, BitVec.getLsbD_append, BitVec.getLsbD_and]
  interval_cases i <;> simp

theorem TableRow.reserved (spare : BitVec 12) : TableRow.Statement (.reserved spare) := by
  apply word_ext
  intro i hi
  simp only [encode, Instr.row, getLsbD_word, BitVec.getLsbD_append, BitVec.getLsbD_and]
  interval_cases i <;> simp

theorem TableRow.lea (dr : Reg) (off : BitVec 9) : TableRow.Statement (.lea dr off) := by
  apply word_ext
  intro i hi
  simp only [encode, Instr.row, getLsbD_word, BitVec.getLsbD_append, BitVec.getLsbD_and]
  interval_cases i <;> simp

theorem TableRow.trap (vector : Byte) (spare : BitVec 4) : TableRow.Statement (.trap vector spare) := by
  apply word_ext
  intro i hi
  simp only [encode, Instr.row, getLsbD_word, BitVec.getLsbD_append, BitVec.getLsbD_and]
  interval_cases i <;> simp

theorem TableRow.ret (spareHi : BitVec 3) (spareLo : BitVec 6) : TableRow.Statement (.ret spareHi spareLo) := by
  apply word_ext
  intro i hi
  simp only [encode, Instr.row, getLsbD_word, BitVec.getLsbD_append, BitVec.getLsbD_and]
  interval_cases i <;> simp

theorem TableRow.getc (spare : BitVec 4) : TableRow.Statement (.getc spare) := by
  apply word_ext
  intro i hi
  simp only [encode, Instr.row, getLsbD_word, BitVec.getLsbD_append, BitVec.getLsbD_and]
  interval_cases i <;> simp

theorem TableRow.out (spare : BitVec 4) : TableRow.Statement (.out spare) := by
  apply word_ext
  intro i hi
  simp only [encode, Instr.row, getLsbD_word, BitVec.getLsbD_append, BitVec.getLsbD_and]
  interval_cases i <;> simp

theorem TableRow.puts (spare : BitVec 4) : TableRow.Statement (.puts spare) := by
  apply word_ext
  intro i hi
  simp only [encode, Instr.row, getLsbD_word, BitVec.getLsbD_append, BitVec.getLsbD_and]
  interval_cases i <;> simp

theorem TableRow.inp (spare : BitVec 4) : TableRow.Statement (.inp spare) := by
  apply word_ext
  intro i hi
  simp only [encode, Instr.row, getLsbD_word, BitVec.getLsbD_append, BitVec.getLsbD_and]
  interval_cases i <;> simp

theorem TableRow.putsp (spare : BitVec 4) : TableRow.Statement (.putsp spare) := by
  apply word_ext
  intro i hi
  simp only [encode, Instr.row, getLsbD_word, BitVec.getLsbD_append, BitVec.getLsbD_and]
  interval_cases i <;> simp

theorem TableRow.halt (spare : BitVec 4) : TableRow.Statement (.halt spare) := by
  apply word_ext
  intro i hi
  simp only [encode, Instr.row, getLsbD_word, BitVec.getLsbD_append, BitVec.getLsbD_and]
  interval_cases i <;> simp

end Sys2Proof.Laws
end

