-- ==== Sys2Proof/Tests/Slice0.lean ====
section
/-! SUPPORT. The model's own tests. Each expected value is the spec's: its words of 30_encoding.md R71 written out bit by
bit, its vectors of 95_test_vectors.md (named OP, CT, MA, KB, TR, FT, LD and E there). The `witness_` theorems show, for
each statement that has hypotheses, a concrete state and operands that meet all of them. -/

namespace Sys2Proof.Tests

open Sys2Proof.Machine

/-! ### Building small states -/

/-- The reset state with the listed registers written. -/
def withRegs : List (Reg × Word) → State
  | [] => State.reset
  | (r, v) :: rest => (withRegs rest).setReg r v

/-- A state with the listed registers and cells, pc, flags, and a device script after which the device is silent. -/
def machine (pc : Word) (cond : BitVec 3) (regs : List (Reg × Word)) (cells : List (Word × Word)) (script : List Byte) :
    State :=
  { withRegs regs with
    pc := pc, cond := cond, mem := cells.foldr (fun c m => Memory.write m c.1.toNat c.2) [],
    dev := { script := script, burst := .silentAfter 0, source := 0, calls := 0 } }

/-- The next state of a result. -/
def nextOf : Result → Option State
  | .next t => some t
  | .fault _ => none
  | .refused _ => none

/-- The fault of a result. -/
def faultOf : Result → Option Fault
  | .next _ => none
  | .fault f => some f
  | .refused _ => none

/-- The refusal of a result. -/
def refusalOf : Result → Option Refusal
  | .next _ => none
  | .fault _ => none
  | .refused r => some r

/-- One step from 0x3000 on an instruction word. -/
def run1 (w : Word) (cond : BitVec 3) (regs : List (Reg × Word)) (cells : List (Word × Word)) (script : List Byte) :
    Option State :=
  nextOf (step (machine 0x3000 cond regs ((0x3000, w) :: cells) script))

/-! ### WellFormed -/

theorem test_wf_refuses_jmp_r7 : (Instr.jmp 7 0 0).wellFormed = false := by decide
theorem test_wf_accepts_jmp_r6 : (Instr.jmp 6 0b111 0b111111).wellFormed = true := by decide
theorem test_wf_refuses_named_vectors : ∀ v ∈ trapVectors, (Instr.trap v 0).wellFormed = false := by decide
theorem test_wf_accepts_vectors_beside_them :
    (Instr.trap 0x1F 0).wellFormed = true ∧ (Instr.trap 0x26 0).wellFormed = true := by decide

/-! ### Decoding: a word of each constructor, written from R71 -/

theorem test_decode_br : decode 0b0000_010_000000011#16 = .br 0b010 3 := by decide
theorem test_decode_add_reg : decode 0b0001_001_010_0_00_011#16 = .addReg 1 2 3 0b00 := by decide
theorem test_decode_add_imm : decode 0b0001_011_100_1_10000#16 = .addImm 3 4 0b10000 := by decide
theorem test_decode_ld : decode 0b0010_010_000000101#16 = .ld 2 5 := by decide
theorem test_decode_st : decode 0b0011_011_000000100#16 = .st 0b011 4 := by decide
theorem test_decode_jsr : decode 0b0100_1_10000000000#16 = .jsr 0b10000000000 := by decide
theorem test_decode_jsrr : decode 0b0100_0_10_011_000001#16 = .jsrr 3 0b10 0b000001 := by decide
theorem test_decode_and_reg : decode 0b0101_110_101_0_11_100#16 = .andReg 6 5 4 0b11 := by decide
theorem test_decode_and_imm : decode 0b0101_000_001_1_01111#16 = .andImm 0 1 0b01111 := by decide
theorem test_decode_ldr : decode 0b0110_100_101_111111#16 = .ldr 4 5 0b111111 := by decide
theorem test_decode_str : decode 0b0111_010_110_000011#16 = .str 2 6 3 := by decide
theorem test_decode_rti : decode 0b1000_000000000001#16 = .rti 1 := by decide
theorem test_decode_not : decode 0b1001_100_101_111111#16 = .notReg 4 5 0b111111 := by decide
theorem test_decode_ldi : decode 0b1010_011_000000010#16 = .ldi 3 2 := by decide
theorem test_decode_sti : decode 0b1011_001_000000001#16 = .sti 1 1 := by decide
theorem test_decode_jmp : decode 0b1100_100_010_000001#16 = .jmp 2 0b100 0b000001 := by decide
theorem test_decode_reserved : decode 0b1101_111111111110#16 = .reserved 0b111111111110 := by decide
theorem test_decode_lea : decode 0b1110_000_111111110#16 = .lea 0 0b111111110 := by decide
theorem test_decode_trap : decode 0b1111_0001_00100110#16 = .trap 0x26 1 := by decide
theorem test_decode_ret : decode 0b1100_001_111_100000#16 = .ret 0b001 0b100000 := by decide
theorem test_decode_getc : decode 0b1111_0000_00100000#16 = .getc 0 := by decide
theorem test_decode_out : decode 0b1111_0010_00100001#16 = .out 2 := by decide
theorem test_decode_puts : decode 0b1111_0000_00100010#16 = .puts 0 := by decide
theorem test_decode_in : decode 0b1111_0000_00100011#16 = .inp 0 := by decide
theorem test_decode_putsp : decode 0b1111_0000_00100100#16 = .putsp 0 := by decide
theorem test_decode_halt : decode 0b1111_0001_00100101#16 = .halt 1 := by decide
theorem test_table_word : decodeTableWord 16 0x1283 = some (.addReg 1 2 3 0) := by decide
theorem test_truncated_bytes : decodeBytes [0x12] = .error .truncated := by rfl

/-! ### Operate -/

theorem test_add_reg_op1 :
    (run1 0x1042 0 [(1, 0x7FFF), (2, 0x0001)] [] []).map (fun t => (t.reg 0, t.cond, t.pc)) =
      some (0x8000, 0b100, 0x3001) := by decide
theorem test_add_reg_op2_ignored_bits :
    (run1 0x105A 0 [(1, 0x7FFF), (2, 0x0001)] [] []).map (fun t => (t.reg 0, t.cond)) = some (0x8000, 0b100) := by decide
theorem test_add_imm_op4 :
    (run1 0x16FF 0 [] [] []).map (fun t => (t.reg 3, t.cond)) = some (0xFFFF, 0b100) := by decide
theorem test_add_imm_op6 :
    (run1 0x1270 0 [(1, 0x0010)] [] []).map (fun t => (t.reg 1, t.cond)) = some (0x0000, 0b010) := by decide
theorem test_and_reg_op8 :
    (run1 0x5042 0 [(1, 0xF0F0), (2, 0x0FF0)] [] []).map (fun t => (t.reg 0, t.cond)) = some (0x00F0, 0b001) := by decide
theorem test_and_imm_op10 :
    (run1 0x5070 0 [(1, 0xFFFF)] [] []).map (fun t => (t.reg 0, t.cond)) = some (0xFFF0, 0b100) := by decide
theorem test_not_op14 :
    (run1 0x9940 0 [(5, 0x1234)] [] []).map (fun t => (t.reg 4, t.cond)) = some (0xEDCB, 0b100) := by decide
theorem test_not_op15_in_place :
    (run1 0x903F 0 [(0, 0x8000)] [] []).map (fun t => (t.reg 0, t.cond)) = some (0x7FFF, 0b001) := by decide

/-! ### Control -/

theorem test_br_ct1_ct2 :
    (run1 0x0403 0b010 [] [] []).map (·.pc) = some 0x3004 ∧ (run1 0x0403 0b001 [] [] []).map (·.pc) = some 0x3001 := by
  decide
theorem test_br_ct6_wraps :
    (nextOf (step (machine 0x0000 0b100 [] [(0x0000, 0x0F00)] []))).map (·.pc) = some 0xFF01 := by decide
theorem test_jsr_ct8 :
    (run1 0x4805 0b100 [] [] []).map (fun t => (t.reg 7, t.pc, t.cond)) = some (0x3001, 0x3006, 0b100) := by decide
theorem test_jsr_ct10_wraps :
    (nextOf (step (machine 0xFC00 0 [] [(0xFC00, 0x4BFF)] []))).map (fun t => (t.reg 7, t.pc)) =
      some (0xFC01, 0x0000) := by decide
theorem test_jsrr_ct11 :
    (run1 0x40C0 0 [(3, 0x5000)] [] []).map (fun t => (t.reg 7, t.pc)) = some (0x3001, 0x5000) := by decide
theorem test_jsrr_ct12_link_first :
    (run1 0x41C0 0 [(7, 0x6000)] [] []).map (fun t => (t.reg 7, t.pc)) = some (0x3001, 0x3001) := by decide
theorem test_jmp_ct13 :
    (run1 0xC080 0b001 [(2, 0x4000)] [] []).map (fun t => (t.pc, t.cond)) = some (0x4000, 0b001) := by decide
theorem test_ret_ct14 : (run1 0xC1C0 0 [(7, 0x3050)] [] []).map (·.pc) = some 0x3050 := by decide

/-! ### Memory access -/

theorem test_ld_ma1 :
    (run1 0x2405 0 [] [(0x3006, 0x8001)] []).map (fun t => (t.reg 2, t.cond)) = some (0x8001, 0b100) := by decide
theorem test_ld_ma2_wraps :
    (nextOf (step (machine 0x0000 0 [] [(0x0000, 0x2100), (0xFF01, 0x0007)] []))).map (fun t => (t.reg 0, t.cond)) =
      some (0x0007, 0b001) := by decide
theorem test_ldi_ma3 :
    (run1 0xA602 0b100 [(3, 0x0005)] [(0x3003, 0x4000)] []).map (fun t => (t.reg 3, t.cond)) =
      some (0x0000, 0b010) := by decide
theorem test_ldi_kb5_second_read_polls :
    (run1 0xA204 0 [] [(0x3005, 0xFE00)] [0x41]).map (fun t => (t.reg 1, t.cell 0xFE02, t.cond)) =
      some (0x8000, 0x0041, 0b100) := by decide
theorem test_ldr_ma5_wraps :
    (run1 0x697F 0 [] [(0xFFFF, 0x0001)] []).map (fun t => (t.reg 4, t.cond)) = some (0x0001, 0b001) := by decide
theorem test_ldr_kb2_nothing_pending :
    (run1 0x6040 0 [(1, 0xFE00)] [(0xFE00, 0x8000), (0xFE02, 0x0099)] [0x00]).map
      (fun t => (t.reg 0, t.cell 0xFE00, t.cell 0xFE02, t.cond)) = some (0x0000, 0x0000, 0x0099, 0b010) := by decide
theorem test_lea_ma6 : (run1 0xE1FE 0 [] [] []).map (fun t => (t.reg 0, t.cond)) = some (0x2FFF, 0b001) := by decide
theorem test_lea_ma8_zero :
    (nextOf (step (machine 0x0000 0 [] [(0x0000, 0xE1FF)] []))).map (fun t => (t.reg 0, t.cond)) =
      some (0x0000, 0b010) := by decide
theorem test_st_ma9_stores_r0 :
    (run1 0x3604 0b010 [(0, 0x00AA), (3, 0x5555)] [] []).map (fun t => (t.cell 0x3005, t.cond)) =
      some (0x00AA, 0b010) := by decide
theorem test_sti_ma10 :
    (run1 0xB201 0 [(1, 0xBEEF)] [(0x3002, 0x4000)] []).map (·.cell 0x4000) = some 0xBEEF := by decide
theorem test_str_ma12 :
    (run1 0x75A0 0 [(6, 0x4000), (2, 0x0042)] [] []).map (·.cell 0x3FE0) = some 0x0042 := by decide
theorem test_write_of_zero_unlists : Memory.write (Memory.write [] 5 0x0001) 5 0x0000 = [] := by decide

/-! ### Traps -/

theorem test_getc_tr3 :
    (run1 0xF020 0b100 [] [] [0xC8]).map (fun t => (t.reg 0, t.cond, t.out)) = some (0x00C8, 0b100, []) := by decide
theorem test_getc_tr4_saves_r7 :
    (nextOf (trapGetc ((machine 0x3001 0 [] [] [0x61]).trapEntry true))).map (fun t => (t.reg 0, t.reg 7)) =
      some (0x0061, 0x3001) := by decide
theorem test_out_tr5 : (run1 0xF021 0 [(0, 0x1241)] [] []).map (·.out) = some [0x41] := by decide
theorem test_puts_e6 :
    (run1 0xF022 0 [(0, 0x4000)] [(0x4000, 0x0048), (0x4001, 0x0049)] []).map (·.out) = some [0x48, 0x49] := by decide
theorem test_puts_tr8_wraps :
    (run1 0xF022 0 [(0, 0xFFFF)] [(0xFFFF, 0x0061), (0x0000, 0x0062)] []).map (·.out) = some [0x61, 0x62] := by decide
theorem test_in_tr9 :
    (nextOf (trapIn [0x3E] true (machine 0x3001 0 [] [] [0x41]))).map (fun t => (t.out, t.reg 0, t.cond)) =
      some ([0x3E, 0x41], 0x0041, 0b001) := by decide
theorem test_in_tr10_flags :
    (run1 0xF023 0b100 [(0, 5)] [] [0x00]).map (fun t => (t.reg 0, t.cond)) = some (0x0000, 0b010) := by decide
theorem test_putsp_e7 :
    (run1 0xF024 0 [(0, 0x4000)] [(0x4000, 0x4241), (0x4001, 0x0042)] []).map (·.out) = some [0x41, 0x42, 0x42] := by
  decide
theorem test_putsp_tr11 :
    (run1 0xF024 0b100 [(0, 0x4000)] [(0x4000, 0x4100)] []).map (fun t => (t.out, t.cond)) = some ([0x00, 0x41], 0b100) := by
  decide
theorem test_getc_takes_one_answer :
    (run1 0xF020 0 [] [] [0x41, 0x42]).map (fun t => (t.reg 0, t.dev.script)) = some (0x0041, [0x42]) := by decide
theorem test_free_answer_runs :
    (nextOf (exec (.getc 0) { machine 0x3001 0 [] [] [] with dev := { script := [], burst := .forever, source := 0, calls := 7 } })).map
      (fun t => (t.pc, t.dev)) = some (0x3001, { script := [], burst := .forever, source := 0, calls := 8 }) := by decide
theorem test_halt_tr12 :
    (nextOf (step (machine 0x3006 0 [] [(0x3006, 0xF025)] []))).map (fun t => (t.run, t.pc)) =
      some (.halted, 0x3007) := by decide
theorem test_halt_tr13_ignored_bits : (run1 0xF125 0 [] [] []).map (·.run) = some .halted := by decide

/-! ### Faults -/

theorem test_rti_ft1 :
    (faultOf (step (machine 0x3000 0 [] [(0x3000, 0x8000)] []))).bind (fun f => f.record.map (fun r => (f.code, r.addr, r.ir, r.state.pc))) =
      some (some 1, 0x3000, 0x8000, 0x3001) := by decide
theorem test_reserved_ft3 :
    (faultOf (step (machine 0x3000 0 [] [(0x3000, 0xDFFF)] []))).bind (fun f => f.record.map (fun r => (f.code, r.addr, r.ir, r.state.pc))) =
      some (some 2, 0x3000, 0xDFFF, 0x3001) := by decide
theorem test_bad_trap_ft4 :
    (faultOf (step (machine 0x3000 0 [(7, 0x1111)] [(0x3000, 0xF026)] []))).bind (fun f => f.record.map (fun r => (f.code, r.ir, r.state.reg 7))) =
      some (some 3, 0xF026, 0x1111) := by decide
theorem test_pc_wrap_ft7 :
    (faultOf (step (machine 0xFFFF 0 [] [(0xFFFF, 0x1021)] []))).bind (fun f => f.record.map (fun r => (f.code, r.addr, r.ir, r.state.pc))) =
      some (some 4, 0xFFFF, 0x1021, 0xFFFF) := by decide
theorem test_pc_wrap_ft8_other_policy :
    (nextOf ((machine 0xFFFF 0 [] [(0xFFFF, 0x1021)] []).fetchThen .wrap (fun ir s => exec (decode ir) s))).map
      (fun t => (t.reg 0, t.pc, t.cond)) = some (0x0001, 0x0000, 0b001) := by decide

/-! ### Loading -/

/-- Arbitrary values for what `load` leaves open. -/
def openValues : InitValues :=
  { gpr := Vector.replicate 8 0xABCD, cond := 0b111, mem := [(0x3002, 0x0077)], dev := { script := [], burst := .silentAfter 0, source := 0, calls := 0 } }

theorem test_load_ld1 :
    (load openValues [0x30, 0x00, 0x12, 0x34, 0x56, 0x78]).map
      (fun s => (s.cell 0x3000, s.cell 0x3001, s.cell 0x3002, s.pc)) = some (0x1234, 0x5678, 0x0077, 0x3000) := by decide
theorem test_load_ld2 : (load openValues [0x30, 0x00]).map (·.pc) = some 0x3000 := by decide
theorem test_load_ld3_ld4_refused : load openValues [0x30] = none ∧ load openValues [0x30, 0x00, 0x12] = none := by decide
theorem test_load_ld5_ld6_top :
    (load openValues [0xFF, 0xFF, 0xAB, 0xCD]).map (·.cell 0xFFFF) = some 0xABCD ∧
      load openValues [0xFF, 0xFF, 0xAB, 0xCD, 0x00, 0x01] = none := by decide

/-! ### Witnesses: states and operands that meet the hypotheses of the statements -/

/-- A device that answers 0x41 once, then never. -/
def ready : State := machine 0x3000 0b010 [(1, 0xFE00), (2, 0x3000), (5, 0x1234)] [(0x3000, 0x2405), (0xFE02, 0x0099)] [0x41]

/-- A device that answers 0x00 once, then never. -/
def idle : State := machine 0x3000 0b010 [(0, 0xFE00), (1, 0xFE00)] [] [0x00]

/-- A device that never answers. -/
def silent : State := machine 0x3000 0b010 [(0, 0xFE00), (1, 0xFE00)] [] []

/-- The device after its one answer. -/
def spent : Device := { script := [], burst := .silentAfter 0, source := 0, calls := 0 }

theorem witness_SignExtension :
    sext 0x10#5 = 0xFFF0 ∧ sext 0x0F#5 = 0x000F ∧ sext 0x20#6 = 0xFFE0 ∧ sext 0x1F#6 = 0x001F ∧
      sext 0x100#9 = 0xFF00 ∧ sext 0x0FF#9 = 0x00FF ∧ sext 0x400#11 = 0xFC00 ∧ sext 0x3FF#11 = 0x03FF := by decide

theorem witness_flags_at_the_boundaries :
    condOf 0x0000 = 0b010 ∧ condOf 0x0001 = 0b001 ∧ condOf 0x7FFF = 0b001 ∧ condOf 0x8000 = 0b100 ∧
      condOf 0xFFFF = 0b100 := by decide

/-- KeyboardReadPolls: one state for each of its four clauses. -/
theorem witness_KeyboardReadPolls :
    Device.next ready.dev = some (0x41, spent) ∧ (0x41#8 : Byte) ≠ 0x00#8 ∧ Device.next idle.dev = some (0x00, spent) ∧
      Device.next silent.dev = none ∧ (0xFE01 : Word) ≠ 0xFE00#16 ∧ (0xFDFF : Word) ≠ 0xFE00#16 := by decide

/-- MemReadIsTheReadRelation, and the hypothesis `Reads s a v s1` of every statement that reads: by a plain cell. -/
theorem witness_Reads_plain : Reads ready 0x3000 0x2405 ready ∧ ready.memRead 0x3000 = some (0x2405, ready) :=
  ⟨.plain 0x3000 (by decide), by decide⟩

theorem witness_Reads_plain_beside_the_status_cell : Reads idle 0xFE01 0x0000 idle ∧ Reads ready 0xFE02 0x0099 ready :=
  ⟨.plain 0xFE01 (by decide), .plain 0xFE02 (by decide)⟩

/-- The same hypothesis by a poll that received a byte, and by one that received none. -/
theorem witness_Reads_poll : (∃ s1, Reads ready 0xFE00 0x8000 s1) ∧ ∃ s1, Reads idle 0xFE00 0x0000 s1 :=
  ⟨⟨_, .ready 0x41 spent (by decide) (by decide)⟩, ⟨_, .idle spent (by decide)⟩⟩

theorem witness_StoredStatusWordIsNeverRead :
    (((ready.memWrite 0xFE00 0x1234).memRead 0xFE00).map (·.1) = some 0x8000) ∧
      ((idle.memWrite 0xFE00 0x1234).memRead 0xFE00).map (·.1) = some 0x0000 := by decide

/-- The encoding clauses of the instruction statements: a word with each opcode and each selecting bit. -/
theorem witness_encoding_clauses :
    BitVec.extractLsb' 12 4 0x1042#16 = 0b0001#4 ∧ BitVec.getLsbD 0x1042#16 5 = false ∧ BitVec.getLsbD 0x16FF#16 5 = true ∧
      BitVec.extractLsb' 12 4 0x5042#16 = 0b0101#4 ∧ BitVec.getLsbD 0x5020#16 5 = true ∧
      BitVec.extractLsb' 12 4 0x4805#16 = 0b0100#4 ∧ BitVec.getLsbD 0x4805#16 11 = true ∧
      BitVec.getLsbD 0x40C0#16 11 = false ∧ BitVec.extractLsb' 12 4 0xF0FF#16 = 0b1111#4 ∧
      BitVec.extractLsb' 0 8 0xF020#16 = 0x20#8 ∧ (BitVec.extractLsb' 0 8 0xF01F#16).toNat < 32 ∧
      37 < (BitVec.extractLsb' 0 8 0xF026#16).toNat ∧ regField 0xC1C0#16 6 = 7 ∧ regField 0xC080#16 6 ≠ 7 := by decide

/-- LdLoadsPcRelative, LdrLoadsBasePlusOffset, StiStoresThroughPointer: a plain read, and a read that polls. -/
theorem witness_LoadAddresses :
    ready.pc + sext 0#9 = 0x3000 ∧ ready.reg 1 + sext 0#6 = 0xFE00 ∧
      (machine 0xFE01 0 [] [] [0x41]).pc + sext 0x1FF#9 = 0xFE00 := by decide

/-- LdiLoadsThroughPointer: the pointer names the status cell, so that the second read polls. -/
theorem witness_LdiLoadsThroughPointer :
    let s := machine 0x3001 0 [] [(0x3005, 0xFE00)] [0x41]
    Reads s (s.pc + sext 4#9) 0xFE00 s ∧ ∃ s2, Reads s 0xFE00 0x8000 s2 :=
  ⟨.plain 0x3005 (by decide), ⟨_, .ready 0x41 spent (by decide) (by decide)⟩⟩

/-- StoreIsSeenByTheNextFetch: an STR and an ST that store where the next fetch reads. -/
theorem witness_StoreIsSeenByTheNextFetch :
    ready.run = .running ∧ ready.pc ≠ 0xFE00#16 ∧ ready.pc ≠ 0xFFFF#16 ∧ ready.reg 2 + sext 0#6 = ready.pc ∧
      ready.pc + sext 0#9 = ready.pc ∧ (nextOf (exec (.str 5 2 0) ready)).isSome = true ∧
      (nextOf (exec (.st 0 0) ready)).isSome = true := by decide

/-- StoreIsSeenByTheNextFetch: an STI whose pointer names the next fetch address. -/
theorem witness_StoreIsSeenByTheNextFetch_sti :
    let s := machine 0x3001 0 [(1, 0x1021)] [(0x3003, 0x3001)] []
    s.run = .running ∧ s.pc ≠ 0xFE00#16 ∧ s.pc ≠ 0xFFFF#16 ∧ Reads s (s.pc + sext 2#9) s.pc s ∧
      (nextOf (exec (.sti 1 2) s)).isSome = true :=
  ⟨rfl, by decide, by decide, .plain 0x3003 (by decide), by decide⟩

theorem witness_JmpAndRetGoToBase :
    (∃ b h l, b = (7 : Reg) ∧ Instr.ret 1 2 = .ret h l) ∧ ∃ b h l, Instr.jmp 3 1 2 = .jmp b h l :=
  ⟨⟨7, 1, 2, rfl, rfl⟩, ⟨3, 1, 2, rfl⟩⟩

/-- GetcStoresByteWithoutFlags, InStoresByteAndSetsFlags: an answered byte; both spellings of the instruction run. -/
theorem witness_GetcAndIn :
    Device.next ready.dev = some (0x41, spent) ∧
      (nextOf (exec (.getc 1) ready)).map (·.dev) = some spent ∧ (nextOf (exec (.trap 0x20 1) ready)).map (·.dev) = some spent ∧
      (nextOf (exec (.inp 1) ready)).map (·.dev) = some spent ∧ (nextOf (exec (.trap 0x23 1) ready)).map (·.dev) = some spent := by
  decide

/-- PutsEmitsLowBytesUntilZeroWord, PutspEmitsBothBytesUntilZeroWord: a string of two words that wraps past 0xFFFF, and
an empty one. -/
theorem witness_strings :
    let s := machine 0x3001 0 [(0, 0xFFFF)] [(0xFFFF, 0x0061), (0x0000, 0x4241)] []
    let e := machine 0x3001 0 [(0, 0x4000)] [] []
    (∀ k, k < 3 → s.reg 0 + BitVec.ofNat 16 k ≠ 0xFE00#16) ∧
      (∀ k, k < 2 → s.cell (s.reg 0 + BitVec.ofNat 16 k) ≠ 0x0000#16) ∧
      s.cell (s.reg 0 + BitVec.ofNat 16 2) = 0x0000#16 ∧ e.cell (e.reg 0 + BitVec.ofNat 16 0) = 0x0000#16 ∧
      e.reg 0 + BitVec.ofNat 16 0 ≠ 0xFE00#16 := by decide

/-- PutsEndsExactlyWithItsStringRun, PutspEndsExactlyWithItsStringRun: a string run through a plain cell into the status
cell, whose poll reads the zero word. -/
theorem witness_StringRun :
    let s := machine 0x3001 0 [(0, 0xFDFF)] [(0xFDFF, 0x0061)] [0x00]
    ∃ t, StringRun putsBytes 0xFDFF s t :=
  ⟨_, .go (.plain 0xFDFF (by decide)) (by decide) (.stop (.idle spent (by decide)))⟩

theorem witness_string_run_answers :
    (nextOf (exec (.puts 0) (machine 0x3001 0 [(0, 0xFDFF)] [(0xFDFF, 0x0061)] [0x00]))).map (·.out) = some [0x61] ∧
      (nextOf (exec (.trap 0x24 0) (machine 0x3001 0 [(0, 0xFDFF)] [(0xFDFF, 0x0061)] [0x00]))).map (·.out) = some [0x61] := by
  decide

theorem witness_OutAndHaltThroughTrap :
    (nextOf (exec (.trap 0x21 0) (machine 0x3001 0 [(0, 0x1241)] [] []))).map (·.out) = some [0x41] ∧
      (nextOf (exec (.trap 0x25 0) ready)).map (·.run) = some .halted := by decide

/-- The step clauses of RtiAlwaysFaults, ReservedOpcodeAlwaysFaults and UnknownVectorFaultsBeforeAnyEffect, and
OnlyTheListedFaults and StepRunsTheFetchedInstruction: a running state, not at 0xFFFF, that reads such a word at pc. -/
theorem witness_fault_steps :
    [0x8000#16, 0xD000#16, 0xF01F#16, 0xF026#16, 0xF000#16, 0xF0FF#16].all (fun w =>
      decide ((machine 0x3000 0 [] [(0x3000, w)] []).run = .running) &&
        decide ((machine 0x3000 0 [] [(0x3000, w)] []).pc ≠ 0xFFFF#16) &&
        decide ((machine 0x3000 0 [] [(0x3000, w)] []).memRead 0x3000 = some (w, machine 0x3000 0 [] [(0x3000, w)] [])) &&
        ((faultOf (step (machine 0x3000 0 [] [(0x3000, w)] []))).bind Fault.code).isSome) = true := by decide

theorem witness_unknown_vectors :
    (0x1F#8).toNat < 32 ∧ 37 < (0x26#8).toNat ∧ ((faultOf (exec (.trap 0x1F 0) ready)).bind Fault.code) = some 3 ∧
      ((faultOf (exec (.trap 0x26 0) ready)).bind Fault.code) = some 3 := by decide

theorem witness_FetchAtTopOfMemoryFaults :
    (machine 0xFFFF 0 [] [(0xFFFF, 0x1021)] []).run = .running ∧ (machine 0xFFFF 0 [] [(0xFFFF, 0x1021)] []).pc = 0xFFFF ∧
      ((faultOf (step (machine 0xFFFF 0 [] [(0xFFFF, 0x1021)] []))).bind Fault.code) = some 4 := by decide

/-- SilentDeviceLeavesNoNextState: each of its clauses. -/
theorem witness_SilentDeviceLeavesNoNextState :
    Device.next silent.dev = none ∧ (machine 0xFE01 0 [] [] []).pc + sext 0x1FF#9 = 0xFE00 ∧
      Device.next (machine 0xFE01 0 [] [] []).dev = none ∧ silent.reg 1 + sext 0#6 = 0xFE00 ∧ silent.reg 0 = 0xFE00 ∧
      (machine 0xFE00 0 [] [] []).run = .running ∧ (machine 0xFE00 0 [] [] []).pc = 0xFE00 := by decide

theorem witness_silent_second_read :
    let s := machine 0x3001 0 [] [(0x3005, 0xFE00)] []
    Reads s (s.pc + sext 4#9) 0xFE00 s ∧ Device.next s.dev = none :=
  ⟨.plain 0x3005 (by decide), by decide⟩

/-- SilentDeviceLeavesNoNextState: a string that comes to the unanswered poll at once, and after a word before it. -/
theorem witness_StringSilent (saves : Bool) :
    StringSilent lowByte 0xFE00 ((machine 0x3001 0 [] [] []).trapEntry saves) ∧
      StringSilent bothBytes 0xFDFF ((machine 0x3001 0 [(0, 0xFDFF)] [(0xFDFF, 0x0061)] []).trapEntry saves) :=
  ⟨.here rfl, .go (.plain 0xFDFF (by decide)) (by decide : (0x0061#16 : Word) ≠ 0x0000#16) (.here rfl)⟩

theorem witness_string_to_silence_stops :
    (faultOf (exec (.putsp 0) (machine 0x3001 0 [(0, 0xFDFF)] [(0xFDFF, 0x0061)] []))) = some .deviceSilent ∧
      (faultOf (exec (.trap 0x22 0) (machine 0x3001 0 [(0, 0xFE00)] [] []))) = some .deviceSilent := by decide

/-- PlacedWordRunsNext: the reset state. -/
theorem witness_PlacedWordRunsNext :
    State.reset.pc ≠ 0xFE00#16 ∧ State.reset.pc ≠ 0xFFFF#16 ∧
      (nextOf (step (State.reset.withFetchWord 16 0x16FF))).map (·.reg 3) = some 0xFFFF := by decide

/-- RunIsHaltedOnlyByHalt, PcChangesOnlyByControlTransfer, EveryStepKeepsCanonicalMemory: steps that go on. -/
theorem witness_steps :
    (nextOf (step ready)).map (·.run) = some .running ∧ ready.Inv ∧
      (nextOf (step (machine 0x3000 0 [] [(0x3000, 0xF025)] []))).map (·.run) = some .halted := by decide

theorem witness_HaltedMachineHasNoStep :
    ready.setHalted.run = .halted ∧ refusalOf (step ready.setHalted) = some .stepWhenHalted := by decide

/-- FlagsChangeOnlyWhereListed, RegistersChangeOnlyWhereListed, PcChangesOnlyByControlTransfer: instructions that go on,
on each side of each clause. -/
theorem witness_where_listed :
    (nextOf (exec (.addImm 1 1 1) ready)).isSome = true ∧ flagDest (.addImm 1 1 1) = some 1 ∧
      (nextOf (exec (.inp 0) ready)).isSome = true ∧ flagDest (.inp 0) = some 0 ∧ flagDest (.trap 0x23 0) = some 0 ∧
      (nextOf (exec (.jsr 1) ready)).isSome = true ∧ flagDest (.jsr 1) = none ∧ isTrap (.getc 0) = true ∧
      (nextOf (exec (.getc 0) ready)).isSome = true ∧ writesPc (.getc 0) = false := by decide

/-- FlagsAreReadOnlyByBr, OutputIsNeverRead: instructions that are no BR and go on, one that leaves the flags and one
that sets them, and one that stops. -/
theorem witness_FlagsAreReadOnlyByBr :
    (∀ nzp off, Instr.getc 0 ≠ .br nzp off) ∧ (nextOf (exec (.getc 0) ready)).isSome = true ∧
      (∀ nzp off, Instr.inp 0 ≠ .br nzp off) ∧ (nextOf (exec (.inp 0) ready)).isSome = true ∧
      (∀ nzp off, Instr.rti 0 ≠ .br nzp off) ∧ (faultOf (exec (.rti 0) ready)).isSome = true :=
  ⟨fun _ _ h => Instr.noConfusion h, by decide, fun _ _ h => Instr.noConfusion h, by decide,
    fun _ _ h => Instr.noConfusion h, by decide⟩

/-- MemoryChangesOnlyByStoresAndPolls: an address beside the stored one, and an instruction that stores nothing. -/
theorem witness_MemoryChangesOnlyByStoresAndPolls :
    ¬ StoresTo (.str 5 2 0) ready 0x3001 ∧ (nextOf (exec (.str 5 2 0) ready)).isSome = true ∧
      ¬ StoresTo (.lea 0 0) ready 0x3000 ∧ touchesDevice (.lea 0 0) = false ∧ (nextOf (exec (.lea 0 0) ready)).isSome = true :=
  ⟨by show ¬ ((0x3001 : Word) = ready.reg 2 + sext 0#6); decide, by decide, fun h => h, rfl, by decide⟩

theorem witness_OnlyReadersMeetTheDevice :
    touchesDevice (.halt 0) = false ∧ (nextOf (exec (.halt 0) ready)).isSome = true := by decide

theorem witness_OnlyIllegalInstructionsFault :
    ((faultOf (exec (.rti 0) ready)).bind Fault.code) = some 1 ∧ ((faultOf (exec (.reserved 0) ready)).bind Fault.code) = some 2 ∧
      ((faultOf (exec (.trap 0 0) ready)).bind Fault.code) = some 3 := by decide

/-- ResetAndLoadAreCanonical, LoadBuildsTheInitialState: an accepted image over a canonical memory, up to the top cell. -/
theorem witness_load :
    Memory.wf openValues.mem = true ∧ (load openValues [0xFF, 0xFF, 0xAB, 0xCD]).isSome = true ∧
      (load openValues [0xFF, 0xFF]).isSome = true ∧ (0x3002 : Word) ≠ 0xFFFF := by decide

/-- LegalInstructionsGoOn: a word of each allowed vector, and one that is no TRAP. -/
theorem witness_LegalInstructionsGoOn :
    [0xF020#16, 0xF021#16, 0xF023#16, 0xF025#16, 0xC1C0#16].all (fun w =>
      decide ((State.reset.memWrite 0x3000 w).run = .running) && decide ((State.reset.memWrite 0x3000 w).pc = 0x3000#16) &&
        decide ((State.reset.memWrite 0x3000 w).memRead 0x3000 = some (w, State.reset.memWrite 0x3000 w)) &&
        decide (w.extractLsb' 12 4 ≠ 0b1000#4) && decide (w.extractLsb' 12 4 ≠ 0b1101#4) &&
        decide (w.extractLsb' 12 4 = 0b1111#4 → w.extractLsb' 0 8 ∈ [0x20#8, 0x21#8, 0x23#8, 0x25#8])) = true := by decide

/-- LegalInstructionsGoOn: devices that answer three calls, with bytes of a script and with free bytes; and its
hypotheses together in the state of the first. -/
theorem witness_Answers (u : Sys2Proof.Config.Burst) (c : Nat) :
    Device.Answers 3 { script := [0x41, 0x42, 0x00], burst := u, source := 0, calls := c } ∧
      Device.Answers 3 { script := [], burst := .forever, source := 0, calls := c } ∧
      Device.Answers 3 { script := [], burst := .zeroAfter 2, source := 0, calls := c } :=
  ⟨⟨_, _, rfl, _, _, rfl, _, _, rfl, trivial⟩, ⟨_, _, rfl, _, _, rfl, _, _, rfl, trivial⟩,
    ⟨_, _, rfl, _, _, rfl, _, _, rfl, trivial⟩⟩

theorem witness_LegalInstructionsGoOn_together :
    let s := machine 0x3000 0 [] [(0x3000, 0xF020)] [0x41, 0x42, 0x41]
    s.run = .running ∧ s.pc ≠ 0xFFFF#16 ∧ Device.Answers 3 s.dev ∧ Reads s 0x3000 0xF020 s :=
  ⟨rfl, by decide, ⟨_, _, rfl, _, _, rfl, _, _, rfl, trivial⟩, .plain 0x3000 (by decide)⟩

/-- LegalInstructionsGoOn: the premises of a PUTS word, with a string of one word. -/
theorem witness_LegalInstructionsGoOn_puts :
    let s := machine 0x3000 0 [(0, 0x4000)] [(0x3000, 0xF022), (0x4000, 0x0061)] [0x41, 0x42, 0x41]
    s.run = .running ∧ s.pc ≠ 0xFFFF#16 ∧ Device.Answers 3 s.dev ∧ Reads s 0x3000 0xF022 s ∧
      ∃ t, StringRun lowByte (s.reg 0) ((s.setPc (s.pc + 1#16)).trapEntry trapSavesR7) t :=
  ⟨rfl, by decide, ⟨_, _, rfl, _, _, rfl, _, _, rfl, trivial⟩, .plain 0x3000 (by decide),
    ⟨_, .go (.plain 0x4000 (by decide)) (by decide : (0x0061#16 : Word) ≠ 0x0000#16) (.stop (.plain 0x4001 (by decide)))⟩⟩

theorem witness_DecodeOfEncode : (Instr.jmp 6 0 0).wellFormed = true ∧ encode (.jmp 6 0 0) = 0xC180#16 := by decide

/-- RunEndsAtTheFirstHaltOrFault: a run that halts, one that stops at a fault, and one that has not ended. -/
theorem witness_RunEndsAtTheFirstHaltOrFault :
    (∃ t, runFor 1 (machine 0x3000 0 [] [(0x3000, 0xF025)] []) = .halted t) ∧
      (∃ f, runFor 1 (machine 0x3000 0 [] [(0x3000, 0xD000)] []) = .stopped f) ∧
      ∃ t, runFor 1 (machine 0x3000 0 [] [(0x3000, 0x1021), (0x3001, 0xD000)] []) = .unfinished t ∧
        ((faultOf (step t)).bind Fault.code) = some 2 :=
  ⟨⟨_, rfl⟩, ⟨_, rfl⟩, ⟨_, rfl, by decide⟩⟩

/-- RunEndsAtTheFirstHaltOrFault: a run that is stuck in its first step, and one that is about to be. -/
theorem witness_run_stuck :
    runFor 1 (machine 0x3000 0 [] [(0x3000, 0xF020)] []) = .stuck .deviceSilent ∧
      ∃ t, runFor 1 (machine 0x3000 0 [] [(0x3000, 0x1021), (0x3001, 0xF020)] []) = .unfinished t ∧
        step t = .fault .deviceSilent ∧ Fault.code .deviceSilent = none :=
  ⟨rfl, _, rfl, rfl, rfl⟩

theorem witness_run_before_halt :
    ∃ t u, runFor 1 (machine 0x3000 0 [] [(0x3000, 0x1021), (0x3001, 0xF025)] []) = .unfinished t ∧ step t = .next u ∧
      u.run = .halted :=
  ⟨_, _, rfl, rfl, rfl⟩

end Sys2Proof.Tests
end

section
/-! PROOFS. The notation of 00_scope.md: sign extension (R8). -/

namespace Sys2Proof.Proofs
open Sys2Proof Sys2Proof.Machine

/-- A field no wider than a word keeps its signed value. -/
@[simp] theorem toInt_sext {n : Nat} (hn : n ≤ 16) (f : BitVec n) : (sext f).toInt = f.toInt :=
  BitVec.toInt_signExtend_of_le hn

/-- The bits of an extended field: the field's own below its width, its sign bit from there up to bit 15. -/
theorem getLsbD_sext {n i : Nat} (hi : i < 16) (f : BitVec n) :
    (sext f).getLsbD i = if i < n then f.getLsbD i else f.getLsbD (n - 1) := by
  simp only [sext, BitVec.getLsbD_signExtend, hi, decide_true, Bool.true_and, BitVec.msb_eq_getLsbD_last]

/-- Settles O1: the widths 5, 6, 9 and 11 matter only in that none exceeds 16. -/
theorem signExtension : Obligations.SignExtension := by
  unfold Obligations.SignExtension
  intro n hn f
  have hle : n ≤ 16 := by omega
  exact ⟨toInt_sext hle f, fun _ hi => getLsbD_sext hi f⟩

end Sys2Proof.Proofs
end

section
/-! PROOFS. What is common to every instruction that goes on: the registers, `pc`, flags and run state it may change
(10_state.md R20, R24, R28, R30), said once of all of `exec`. -/

namespace Sys2Proof.Proofs
open Sys2Proof Sys2Proof.Machine

/-! ### The flags of a value -/

/-- R27: the three cases of `condOf` are zero, bit 15 set, and the rest. -/
theorem flagsOf_condOf (v : Word) : FlagsOf v (condOf v) := by
  have hzero : v = 0x0000#16 ↔ v.toNat = 0 := by rw [← BitVec.toNat_inj]; rfl
  have hsign : v.getLsbD 15 = true ↔ 32768 ≤ v.toNat := by
    rw [← BitVec.msb_eq_getLsbD_last (w := 16), BitVec.msb_eq_decide, decide_eq_true_eq]
  simp only [FlagsOf, condOf, hzero, hsign]
  refine ⟨fun h => if_pos h, fun h => ?_, fun hpos hlt => ?_⟩
  · rw [if_neg (by omega), if_pos h]
  · rw [if_neg (by omega), if_neg (by omega)]

/-- R29. -/
theorem oneFlag_condOf (v : Word) : OneFlag (condOf v) := condOf_cases v

/-! ### Reads and steps -/

/-- The machine's read is one that the spec's read relation allows. -/
theorem reads_of_memRead {s s1 : State} {a v : Word} (h : s.memRead a = some (v, s1)) : Reads s a v s1 := by
  by_cases ha : a = kbsrAddr
  · subst ha
    rw [State.memRead_keyboard] at h
    obtain ⟨⟨b, d⟩, hd, hread⟩ := Option.map_eq_some_iff.mp h
    obtain ⟨rfl, rfl⟩ := Prod.mk.inj hread
    rw [State.keyboardWrite_cell, if_pos rfl]
    by_cases hb : b = 0x00#8
    · subst hb
      exact .idle d hd
    · rw [if_neg hb, State.keyboardWrite_ready _ hb]
      exact .ready b d hd hb
  · rw [State.memRead_plain s ha] at h
    obtain ⟨rfl, rfl⟩ := Prod.mk.inj (Option.some.inj h)
    exact .plain a ha

/-- R80: a step that goes on is the execution, from Running, of the word it read at `pc`. -/
theorem step_next {s t : State} (h : step s = .next t) :
    s.run = .running ∧ ∃ ir s1, s.memRead s.pc = some (ir, s1) ∧
      exec (decode ir) (s1.setPc (s.pc + 1#16)) = .next t := by
  unfold step at h
  cases hrun : s.run with
  | halted => rw [hrun] at h; cases h
  | running =>
    rw [hrun] at h
    obtain ⟨ir, s1, hread, hexec, -⟩ := State.fetchThen_next h
    exact ⟨rfl, ir, s1, hread, hexec⟩

/-! ### TRAP and the six routines -/

/-- The instruction that names a routine (R91). -/
def routine (spare : BitVec 4) : TrapTag → Instr
  | .getc => .getc spare
  | .out => .out spare
  | .puts => .puts spare
  | .inp => .inp spare
  | .putsp => .putsp spare
  | .halt => .halt spare

/-- The vector of a routine (R78). -/
def routineVector : TrapTag → Byte
  | .getc => 0x20#8
  | .out => 0x21#8
  | .puts => 0x22#8
  | .inp => 0x23#8
  | .putsp => 0x24#8
  | .halt => 0x25#8

theorem eq_routineVector_of_decodeTrap {v : Byte} {tag : TrapTag} (h : decodeTrap v = some tag) :
    v = routineVector tag := by
  unfold decodeTrap at h
  split_ifs at h with h0 h1 h2 h3 h4 h5 <;> cases h <;> assumption

/-- TRAP with a routine's vector does what the routine's own row does. -/
theorem exec_trap_routineVector (tag : TrapTag) (spare : BitVec 4) (s : State) :
    exec (.trap (routineVector tag) spare) s = exec (routine spare tag) s := by
  cases tag <;> rfl

theorem exec_trap_of_decodeTrap_none {v : Byte} (h : decodeTrap v = none) (spare : BitVec 4) (s : State) :
    exec (.trap v spare) s = raiseFault (.badTrap v) (encode (.trap v spare)) s := by
  simp only [exec, execTrap, h]

/-- The decoder gives a routine's vector the routine's own row (R91), so a decoded TRAP names no routine. -/
theorem decodeTrap_of_decode {ir : Word} {v : Byte} {spare : BitVec 4} (h : decode ir = .trap v spare) :
    decodeTrap v = none := by
  have hword : decodeTrapWord ir = .trap v spare → decodeTrap v = none := by
    simp only [decodeTrapWord]
    intro hw
    split at hw <;> cases hw
    assumption
  unfold decode decodeJmpWord at h
  split at h
  case h_16 => exact hword h
  all_goals (repeat' split at h) <;> cases h

/-! ### What an instruction that goes on leaves -/

/-- Does the instruction set the run state to Halted (R185)? -/
def halts : Instr → Bool
  | .halt _ => true
  | .trap v _ => v == 0x25#8
  | _ => false

/-- Of the words, those of HALT are the ones that halt. -/
theorem halts_decode (ir : Word) : halts (decode ir) = true ↔ ∃ x, decode ir = .halt x := by
  cases h : decode ir with
  | trap v spare =>
    have hv : v ≠ 0x25#8 := by
      rintro rfl
      exact absurd (decodeTrap_of_decode h) (by decide)
    simp [halts, hv]
  | _ => simp [halts]

/-- Nothing but memory, output and the device may differ: what reads and the loop of a string keep. -/
structure SameCore (s t : State) : Prop where
  x : t.x = s.x
  pc : t.pc = s.pc
  cond : t.cond = s.cond
  run : t.run = s.run

theorem SameCore.refl (s : State) : SameCore s s := ⟨rfl, rfl, rfl, rfl⟩

theorem SameCore.trans {s t u : State} (h : SameCore s t) (k : SameCore t u) : SameCore s u :=
  ⟨k.x.trans h.x, k.pc.trans h.pc, k.cond.trans h.cond, k.run.trans h.run⟩

theorem SameCore.reg {s t : State} (h : SameCore s t) (r : Reg) : t.reg r = s.reg r := by
  simp only [State.reg, h.x]

theorem SameCore.of_memRead {s t : State} {a v : Word} (h : s.memRead a = some (v, t)) : SameCore s t :=
  have ⟨hx, hpc, hcond, hrun, _⟩ := State.memRead_frame h
  ⟨hx, hpc, hcond, hrun⟩

theorem SameCore.of_stringLoop {bytes : Word → List Byte} {n : Nat} {a : Word} {s t : State}
    (h : stringLoop bytes n a s = .next t) : SameCore s t :=
  have ⟨hx, hpc, hcond, hrun, _⟩ := stringLoop_next h
  ⟨hx, hpc, hcond, hrun⟩

/-- What instruction `i` may have done to registers, `pc`, flags and run state when it goes on from `s` to `t`. -/
structure ExecFrame (i : Instr) (s t : State) : Prop where
  flags : ∀ r, flagDest i = some r → t.cond = condOf (t.reg r)
  noFlags : flagDest i = none → t.cond = s.cond
  regs : SameRegsBut (destRegs i) s t
  link : isTrap i = true → TrapLink s t
  pc : writesPc i = false → t.pc = s.pc
  run : t.run = if halts i then .halted else s.run

/-- The instructions that write one register with its flags: ADD, AND, NOT, LEA and the loads. -/
theorem ExecFrame.of_setRegCc {i : Instr} {s s1 : State} {dr : Reg} (v : Word) (hcore : SameCore s s1)
    (hflag : flagDest i = some dr) (hdest : destRegs i = [dr]) (htrap : isTrap i = false) (hhalt : halts i = false) :
    ExecFrame i s (s1.setRegCc dr v) where
  flags r hr := by
    obtain rfl : dr = r := Option.some.inj (hflag.symm.trans hr)
    simp [State.setRegCc_reg]
  noFlags h := by simp [hflag] at h
  regs q hq := by
    have hne : q ≠ dr := by simpa [hdest] using hq
    rw [State.setRegCc_reg, if_neg hne, hcore.reg]
  link h := by simp [htrap] at h
  pc _ := hcore.pc
  run := by simp [hhalt, hcore.run]

/-- The stores. -/
theorem ExecFrame.of_memWrite {i : Instr} {s s1 : State} (a v : Word) (hcore : SameCore s s1)
    (hflag : flagDest i = none) (htrap : isTrap i = false) (hhalt : halts i = false) :
    ExecFrame i s (s1.memWrite a v) where
  flags r hr := by simp [hflag] at hr
  noFlags _ := hcore.cond
  regs q _ := hcore.reg q
  link h := by simp [htrap] at h
  pc _ := hcore.pc
  run := by simp [hhalt, hcore.run]

/-- The control transfers without a link: BR, JMP and RET. -/
theorem ExecFrame.of_setPc {i : Instr} (s : State) (target : Word) (hpc : writesPc i = true)
    (hflag : flagDest i = none) (htrap : isTrap i = false) (hhalt : halts i = false) :
    ExecFrame i s (s.setPc target) where
  flags r hr := by simp [hflag] at hr
  noFlags _ := rfl
  regs _ _ := rfl
  link h := by simp [htrap] at h
  pc h := by simp [hpc] at h
  run := by simp [hhalt]

/-- The control transfers with a link: JSR and JSRR. -/
theorem ExecFrame.of_link {i : Instr} (s : State) (ret target : Word) (hpc : writesPc i = true)
    (hflag : flagDest i = none) (hdest : destRegs i = [7]) (htrap : isTrap i = false) (hhalt : halts i = false) :
    ExecFrame i s ((s.setReg 7 ret).setPc target) where
  flags r hr := by simp [hflag] at hr
  noFlags _ := rfl
  regs q hq := by
    have hne : q ≠ 7 := by simpa [hdest] using hq
    exact State.setReg_reg_other s ret hne
  link h := by simp [htrap] at h
  pc h := by simp [hpc] at h
  run := by simp [hhalt]

/-- The routines that write no register after trap entry: OUT, PUTS, PUTSP. -/
theorem ExecFrame.of_trapEntry {i : Instr} {s t : State} (hcore : SameCore (s.trapEntry trapSavesR7) t)
    (hflag : flagDest i = none) (hdest : destRegs i = [7]) (hhalt : halts i = false) :
    ExecFrame i s t where
  flags r hr := by simp [hflag] at hr
  noFlags _ := hcore.cond
  regs q hq := by
    have hne : q ≠ 7 := by simpa [hdest] using hq
    rw [hcore.reg, State.trapEntry_reg, if_neg hne]
  link _ := by rw [TrapLink, hcore.reg, State.trapEntry_reg, if_pos rfl]
  pc _ := hcore.pc
  run := by simp [hhalt, hcore.run]

/-- GETC and IN write R0 after trap entry; the flags of `t` are given apart, since only IN sets them. -/
theorem ExecFrame.of_input {i : Instr} {s t : State} {v : Word}
    (hreg : ∀ q, t.reg q = ((s.trapEntry trapSavesR7).setReg 0 v).reg q) (hpc : t.pc = s.pc) (hrun : t.run = s.run)
    (hset : ∀ r, flagDest i = some r → r = 0 ∧ t.cond = condOf v) (hkeep : flagDest i = none → t.cond = s.cond)
    (hdest : destRegs i = [0, 7]) (hhalt : halts i = false) : ExecFrame i s t where
  flags r hr := by
    obtain ⟨rfl, hcond⟩ := hset r hr
    rw [hcond, hreg, State.setReg_reg_same]
  noFlags := hkeep
  regs q hq := by
    obtain ⟨hne0, hne7⟩ : q ≠ 0 ∧ q ≠ 7 := by simpa [hdest] using hq
    rw [hreg, State.setReg_reg_other _ _ hne0, State.trapEntry_reg, if_neg hne7]
  link _ := by
    rw [TrapLink, hreg, State.setReg_reg_other _ _ (by decide), State.trapEntry_reg, if_pos rfl]
  pc _ := hpc
  run := by simp [hhalt, hrun]

theorem execFrame_halt (spare : BitVec 4) (s : State) (output : List Byte) :
    ExecFrame (.halt spare) s ((s.trapEntry trapSavesR7).emit output).setHalted where
  flags r hr := by cases hr
  noFlags _ := rfl
  regs q hq := by
    have hne : q ≠ 7 := by simpa [destRegs] using hq
    simp [State.trapEntry_reg, hne]
  link _ := by simp [TrapLink, State.trapEntry_reg]
  pc _ := rfl
  run := rfl

/-- The six routines. -/
theorem execFrame_routine {tag : TrapTag} {spare : BitVec 4} {s t : State}
    (h : exec (routine spare tag) s = .next t) : ExecFrame (routine spare tag) s t := by
  cases tag with
  | getc =>
    obtain ⟨b, d, -, hk⟩ := State.inputThen_next h
    obtain rfl := Host.Outcome.next.inj hk
    exact .of_input (fun _ => rfl) rfl rfl (fun _ hr => by cases hr) (fun _ => rfl) rfl rfl
  | out =>
    obtain rfl := Host.Outcome.next.inj h
    exact .of_trapEntry ⟨rfl, rfl, rfl, rfl⟩ rfl rfl rfl
  | puts => exact .of_trapEntry (.of_stringLoop h) rfl rfl rfl
  | inp =>
    obtain ⟨b, d, -, hk⟩ := State.inputThen_next h
    obtain rfl := Host.Outcome.next.inj hk
    have hset (r : Reg) (hr : some 0 = some r) : r = 0 := (Option.some.inj hr).symm
    exact .of_input (fun _ => rfl) rfl rfl (fun r hr => ⟨hset r hr, rfl⟩) (fun hr => by cases hr) rfl rfl
  | putsp => exact .of_trapEntry (.of_stringLoop h) rfl rfl rfl
  | halt =>
    obtain rfl := Host.Outcome.next.inj h
    exact execFrame_halt spare s haltOutput

/-- A frame is that of any instruction with the same entries in the lists of R20, R24, R28 and R30. -/
theorem ExecFrame.congr {i j : Instr} {s t : State} (h : ExecFrame j s t) (hflag : flagDest i = flagDest j)
    (hdest : destRegs i = destRegs j) (htrap : isTrap i = isTrap j) (hpc : writesPc i = writesPc j)
    (hhalt : halts i = halts j) : ExecFrame i s t where
  flags := hflag ▸ h.flags
  noFlags := hflag ▸ h.noFlags
  regs := hdest ▸ h.regs
  link := htrap ▸ h.link
  pc := hpc ▸ h.pc
  run := hhalt ▸ h.run

theorem execFrame_trap {v : Byte} {spare : BitVec 4} {s t : State} (h : exec (.trap v spare) s = .next t) :
    ExecFrame (.trap v spare) s t := by
  cases hv : decodeTrap v with
  | none => rw [exec_trap_of_decodeTrap_none hv] at h; cases h
  | some tag =>
    obtain rfl := eq_routineVector_of_decodeTrap hv
    rw [exec_trap_routineVector] at h
    refine (execFrame_routine h).congr ?_ ?_ ?_ ?_ ?_ <;> cases tag <;> rfl

/-- Every instruction that goes on keeps to its frame. -/
theorem exec_frame {i : Instr} {s t : State} (h : exec i s = .next t) : ExecFrame i s t := by
  cases i with
  | addReg | addImm | andReg | andImm | notReg | lea =>
    obtain rfl := Host.Outcome.next.inj h
    exact .of_setRegCc _ (.refl s) rfl rfl rfl rfl
  | ld | ldr =>
    obtain ⟨v, s1, hread, hk⟩ := State.readThen_next h
    obtain rfl := Host.Outcome.next.inj hk
    exact .of_setRegCc v (.of_memRead hread) rfl rfl rfl rfl
  | ldi =>
    obtain ⟨addr, s1, hptr, hk⟩ := State.readThen_next h
    obtain ⟨v, s2, hread, hk⟩ := State.readThen_next hk
    obtain rfl := Host.Outcome.next.inj hk
    exact .of_setRegCc v (.trans (.of_memRead hptr) (.of_memRead hread)) rfl rfl rfl rfl
  | st | str =>
    obtain rfl := Host.Outcome.next.inj h
    exact .of_memWrite _ _ (.refl s) rfl rfl rfl
  | sti =>
    obtain ⟨addr, s1, hptr, hk⟩ := State.readThen_next h
    obtain rfl := Host.Outcome.next.inj hk
    exact .of_memWrite _ _ (.of_memRead hptr) rfl rfl rfl
  | br | jmp | ret =>
    obtain rfl := Host.Outcome.next.inj h
    exact .of_setPc s _ rfl rfl rfl rfl
  | jsr | jsrr =>
    obtain rfl := Host.Outcome.next.inj h
    exact .of_link s _ _ rfl rfl rfl rfl rfl
  | rti | reserved => cases h
  | trap => exact execFrame_trap h
  | getc spare => exact execFrame_routine (tag := .getc) h
  | out spare => exact execFrame_routine (tag := .out) h
  | puts spare => exact execFrame_routine (tag := .puts) h
  | inp spare => exact execFrame_routine (tag := .inp) h
  | putsp spare => exact execFrame_routine (tag := .putsp) h
  | halt spare => exact execFrame_routine (tag := .halt) h

/-! ### The statements -/

/-- Settles O2: `setcc` writes `condOf` of the value and nothing else. -/
theorem setccSetsExactlyOneFlag : Obligations.SetccSetsExactlyOneFlag := by
  unfold Obligations.SetccSetsExactlyOneFlag
  exact fun s v => ⟨flagsOf_condOf v, oneFlag_condOf v, rfl⟩

/-- Settles O41: a step runs the word it read from Running, and of all words only HALT's changes the run state. -/
theorem runIsHaltedOnlyByHalt : Obligations.RunIsHaltedOnlyByHalt := by
  unfold Obligations.RunIsHaltedOnlyByHalt
  intro s t h
  obtain ⟨hrun, ir, s1, hread, hexec⟩ := step_next h
  refine ⟨hrun, ir, s1, reads_of_memRead hread, ?_⟩
  have hbefore : (s1.setPc (s.pc + 1#16)).run = .running := (SameCore.of_memRead hread).run.trans hrun
  rw [← halts_decode, (exec_frame hexec).run, hbefore]
  cases halts (decode ir) <;> simp

/-- Settles O43: by the frame of every instruction, a flag setter leaves `condOf` of the register it wrote. -/
theorem flagsChangeOnlyWhereListed : Obligations.FlagsChangeOnlyWhereListed := by
  unfold Obligations.FlagsChangeOnlyWhereListed
  intro s t i h
  have frame := exec_frame h
  refine ⟨fun r hr => ?_, frame.noFlags⟩
  rw [frame.flags r hr]
  exact ⟨flagsOf_condOf _, oneFlag_condOf _⟩

/-- Settles O45, by the frame of every instruction. -/
theorem registersChangeOnlyWhereListed : Obligations.RegistersChangeOnlyWhereListed := by
  unfold Obligations.RegistersChangeOnlyWhereListed
  exact fun s t i h => ⟨(exec_frame h).regs, (exec_frame h).link⟩

/-- Settles O46: by the frame of every instruction, `pc` stays where the fetch of the step left it. -/
theorem pcChangesOnlyByControlTransfer : Obligations.PcChangesOnlyByControlTransfer := by
  unfold Obligations.PcChangesOnlyByControlTransfer
  refine ⟨fun s t i h => (exec_frame h).pc, fun s t h => ?_⟩
  obtain ⟨-, ir, s1, hread, hexec⟩ := step_next h
  exact ⟨ir, s1, reads_of_memRead hread, hexec, (exec_frame hexec).pc⟩

end Sys2Proof.Proofs
end

section
/-! PROOFS. Noninterference: the flags (10_state.md R26) and the output (R35) of the state before an instruction show in
the state after it only where they were, except that BR reads the flags. Both statements are one commutation of `exec`
with a change of the two fields. -/

namespace Sys2Proof.Proofs
open Sys2Proof Sys2Proof.Machine

/-- The state with `fc` applied to its flags and the bytes `p` put before its output. -/
def relabel (fc : BitVec 3 → BitVec 3) (p : List Byte) (s : State) : State :=
  { s with cond := fc s.cond, out := p ++ s.out }

/-- A stop with the recorded state changed by `g`. -/
def mapRecordedState (g : State → State) : Fault → Fault
  | .rti r => .rti { r with state := g r.state }
  | .reserved r => .reserved { r with state := g r.state }
  | .badTrap v r => .badTrap v { r with state := g r.state }
  | .pcWrap r => .pcWrap { r with state := g r.state }
  | .deviceSilent => .deviceSilent
  | .stringEndless => .stringEndless

/-- An outcome relabelled: the next state by `gc`, the state of a fault's record by `fc`. -/
def relabelOutcome (gc fc : BitVec 3 → BitVec 3) (p : List Byte) : Result → Result
  | .next t => .next (relabel gc p t)
  | .fault f => .fault (mapRecordedState (relabel fc p) f)
  | .refused r => .refused r

@[simp] theorem code_mapRecordedState (g : State → State) (f : Fault) : (mapRecordedState g f).code = f.code := by
  cases f <;> rfl

@[simp] theorem record_mapRecordedState (g : State → State) (f : Fault) :
    (mapRecordedState g f).record = f.record.map fun r => { r with state := g r.state } := by
  cases f <;> rfl

/-- A stop without a code is a step that never completes, and it records nothing. -/
theorem mapRecordedState_of_code_none {g : State → State} {f : Fault} (h : f.code = none) :
    mapRecordedState g f = f := by
  cases f with
  | deviceSilent | stringEndless => rfl
  | rti | reserved | badTrap | pcWrap => cases h

section
variable (fc gc : BitVec 3 → BitVec 3) (p : List Byte)

/-! ### The operations commute with the change -/

theorem relabel_emit (s : State) (bytes : List Byte) : (relabel fc p s).emit bytes = relabel fc p (s.emit bytes) := by
  simp [relabel, State.emit]

theorem keyboardWrite_relabel (s : State) (b : Byte) :
    (relabel fc p s).keyboardWrite b = relabel fc p (s.keyboardWrite b) := by
  unfold State.keyboardWrite
  split <;> rfl

theorem memRead_relabel (s : State) (a : Word) :
    (relabel fc p s).memRead a = (s.memRead a).map fun vt => (vt.1, relabel fc p vt.2) := by
  by_cases ha : a = kbsrAddr
  · subst ha
    rw [State.memRead_keyboard, State.memRead_keyboard, Option.map_map]
    refine congrArg (Option.map · (Device.next s.dev)) (funext fun ⟨b, d⟩ => ?_)
    show (State.cell ((relabel fc p { s with dev := d }).keyboardWrite b) kbsrAddr,
      (relabel fc p { s with dev := d }).keyboardWrite b) = _
    rw [keyboardWrite_relabel]
    rfl
  · rw [State.memRead_plain _ ha, State.memRead_plain _ ha]
    rfl

/-- A read commutes with the change when what follows it does. -/
theorem readThen_relabel {k : Word → State → Result}
    (hk : ∀ v t, k v (relabel fc p t) = relabelOutcome gc fc p (k v t)) (s : State) (a : Word) :
    (relabel fc p s).readThen a k = relabelOutcome gc fc p (s.readThen a k) := by
  unfold State.readThen
  rw [memRead_relabel]
  cases s.memRead a with
  | none => rfl
  | some vt => exact hk vt.1 vt.2

theorem devRead_relabel (s : State) :
    (relabel fc p s).devRead = s.devRead.map fun bt => (bt.1, relabel fc p bt.2) := by
  rcases hd : Device.next s.dev with _ | ⟨b, d⟩ <;> simp [State.devRead, relabel, hd]

/-- A wait for input commutes with the change when what follows it does. -/
theorem inputThen_relabel {k : Byte → State → Result}
    (hk : ∀ b t, k b (relabel fc p t) = relabelOutcome gc fc p (k b t)) (s : State) :
    (relabel fc p s).inputThen k = relabelOutcome gc fc p (s.inputThen k) := by
  unfold State.inputThen
  rw [devRead_relabel]
  cases s.devRead with
  | none => rfl
  | some bt => exact hk bt.1 bt.2

theorem stringLoop_relabel (bytes : Word → List Byte) (n : Nat) (a : Word) (s : State) :
    stringLoop bytes n a (relabel fc p s) = relabelOutcome fc fc p (stringLoop bytes n a s) := by
  induction n generalizing a s with
  | zero => rfl
  | succ n ih =>
    refine readThen_relabel fc fc p (fun w t => ?_) s a
    split
    · rfl
    · rw [relabel_emit, ih]

end

/-! ### Every instruction commutes with the change -/

/-- What the change of the flags before an instruction is after it: lost where the instruction sets the flags. -/
def flagsAfter (i : Instr) (fc : BitVec 3 → BitVec 3) : BitVec 3 → BitVec 3 :=
  match flagDest i with
  | some _ => id
  | none => fc

theorem exec_routine_relabel (tag : TrapTag) (spare : BitVec 4) (fc : BitVec 3 → BitVec 3) (p : List Byte)
    (s : State) :
    exec (routine spare tag) (relabel fc p s) =
      relabelOutcome (flagsAfter (routine spare tag) fc) fc p (exec (routine spare tag) s) := by
  cases tag with
  | getc => exact inputThen_relabel fc fc p (fun _ _ => rfl) (s.trapEntry trapSavesR7)
  | out => exact congrArg Host.Outcome.next (relabel_emit fc p (s.trapEntry trapSavesR7) _)
  | puts => exact stringLoop_relabel fc p putsBytes _ _ (s.trapEntry trapSavesR7)
  | inp =>
    show ((relabel fc p (s.trapEntry trapSavesR7)).emit inPrompt).inputThen _ = _
    rw [relabel_emit]
    refine inputThen_relabel fc id p (fun b t => ?_) _
    rw [relabel_emit]
    rfl
  | putsp => exact stringLoop_relabel fc p putspBytes _ _ (s.trapEntry trapSavesR7)
  | halt =>
    have houtput := relabel_emit fc p (s.trapEntry trapSavesR7) haltOutput
    exact congrArg (fun u => Host.Outcome.next (State.setHalted u)) houtput

theorem exec_trap_relabel (v : Byte) (spare : BitVec 4) (fc : BitVec 3 → BitVec 3) (p : List Byte) (s : State) :
    exec (.trap v spare) (relabel fc p s) =
      relabelOutcome (flagsAfter (.trap v spare) fc) fc p (exec (.trap v spare) s) := by
  cases hv : decodeTrap v with
  | none =>
    rw [exec_trap_of_decodeTrap_none hv, exec_trap_of_decodeTrap_none hv]
    rfl
  | some tag =>
    obtain rfl := eq_routineVector_of_decodeTrap hv
    have hafter : flagsAfter (.trap (routineVector tag) spare) fc = flagsAfter (routine spare tag) fc := by
      cases tag <;> rfl
    rw [exec_trap_routineVector, exec_trap_routineVector, hafter, exec_routine_relabel]

/-- Every instruction but BR commutes with a change of flags and output, and BR with one that leaves the flags. -/
theorem exec_relabel (i : Instr) {fc : BitVec 3 → BitVec 3} (hbr : ∀ nzp off, i = .br nzp off → fc = id)
    (p : List Byte) (s : State) : exec i (relabel fc p s) = relabelOutcome (flagsAfter i fc) fc p (exec i s) := by
  cases i with
  | br nzp off =>
    obtain rfl := hbr nzp off rfl
    rfl
  | addReg | addImm | andReg | andImm | notReg | lea | st | str | jmp | ret | jsr | jsrr | rti | reserved => rfl
  | ld | ldr => exact readThen_relabel fc id p (fun _ _ => rfl) s _
  | ldi => exact readThen_relabel fc id p (fun _ t => readThen_relabel fc id p (fun _ _ => rfl) t _) s _
  | sti => exact readThen_relabel fc fc p (fun _ _ => rfl) s _
  | trap v spare => exact exec_trap_relabel v spare fc p s
  | getc spare => exact exec_routine_relabel .getc spare fc p s
  | out spare => exact exec_routine_relabel .out spare fc p s
  | puts spare => exact exec_routine_relabel .puts spare fc p s
  | inp spare => exact exec_routine_relabel .inp spare fc p s
  | putsp spare => exact exec_routine_relabel .putsp spare fc p s
  | halt spare => exact exec_routine_relabel .halt spare fc p s

/-! ### The statements -/

/-- R26, R100: where BR goes. -/
theorem exec_br_pc (s : State) (nzp : BitVec 3) (off : BitVec 9) : ∃ t, exec (.br nzp off) s = .next t ∧
    t.pc = if nzp &&& s.cond = 0b000#3 then s.pc else s.pc + sext off := by
  refine ⟨_, rfl, ?_⟩
  by_cases hmeet : nzp &&& s.cond = 0b000#3 <;> simp [branchTaken, State.pcRel9, hmeet]

/-- Running with other flags `c` is the change that applies `fun _ => c` to the flags and leaves the output. -/
theorem exec_withCond {i : Instr} (hi : ∀ nzp off, i ≠ .br nzp off) (s : State) (c : BitVec 3) :
    exec i { s with cond := c } = relabelOutcome (flagsAfter i fun _ => c) (fun _ => c) [] (exec i s) :=
  exec_relabel i (fc := fun _ => c) (fun nzp off h => absurd h (hi nzp off)) [] s

/-- Settles O44: every instruction but BR commutes with a change of the flags, and BR reads them through its mask. -/
theorem flagsAreReadOnlyByBr : Obligations.FlagsAreReadOnlyByBr := by
  unfold Obligations.FlagsAreReadOnlyByBr
  refine ⟨exec_br_pc, fun s i c hi => ?_⟩
  rw [exec_withCond hi s c]
  refine ⟨fun t h => ?_, fun f h => ?_⟩
  · rw [h]
    unfold flagsAfter
    cases flagDest i <;> rfl
  · rw [h]
    exact ⟨_, rfl, code_mapRecordedState _ f, mapRecordedState_of_code_none, record_mapRecordedState _ f⟩

/-- Only `.next` is relabelled to `.next`. -/
theorem relabelOutcome_next {gc fc : BitVec 3 → BitVec 3} {p : List Byte} {r : Result} {t : State}
    (h : relabelOutcome gc fc p r = .next t) : ∃ u, r = .next u ∧ relabel gc p u = t := by
  cases r with
  | next u => exact ⟨u, rfl, Host.Outcome.next.inj h⟩
  | fault | refused => cases h

/-- Running with the output `o` is running with the empty one and `o` put before what comes out. -/
theorem exec_withOut (i : Instr) (s : State) (o : List Byte) :
    exec i { s with out := o } = relabelOutcome id id o (exec i { s with out := [] }) := by
  have hafter : flagsAfter i id = id := by unfold flagsAfter; cases flagDest i <;> rfl
  have hcomm := exec_relabel i (fc := id) (fun _ _ _ => rfl) o { s with out := [] }
  simpa [relabel, hafter] using hcomm

/-- Settles O48: the bytes an instruction appends are those it emits with the empty output. -/
theorem outputIsNeverRead : Obligations.OutputIsNeverRead := by
  unfold Obligations.OutputIsNeverRead
  intro s t i o h
  obtain ⟨u, hu, rfl⟩ := relabelOutcome_next ((exec_withOut i s s.out).symm.trans h)
  exact ⟨u.out, rfl, by rw [exec_withOut, hu]; rfl⟩

end Sys2Proof.Proofs
end

section
/-! PROOFS. The initial state (10_state.md section 7, 70_reset_and_hazards.md section 1). -/

namespace Sys2Proof.Proofs
open Sys2Proof Sys2Proof.Machine

theorem length_wordsBE (bytes : List Byte) : (wordsBE bytes).length = bytes.length / 2 := by
  induction bytes using wordsBE.induct with
  | case1 hi lo rest ih => simp only [wordsBE, List.length_cons, ih]; omega
  | case2 | case3 => simp [wordsBE]

theorem length_imagePayload (image : List Byte) : (imagePayload image).length = (image.length - 2) / 2 := by
  simp only [imagePayload, List.length_tail, length_wordsBE]
  omega

/-- R231: the payload of an accepted image stays inside the 65,536 words. -/
theorem payload_end_le_of_imageAccepted {image : List Byte} (h : imageAccepted image = true) :
    (imageOrigin image).toNat + (imagePayload image).length ≤ 65536 := by
  simp only [imageAccepted, Bool.and_eq_true, decide_eq_true_eq] at h
  obtain ⟨-, hend⟩ := h
  rwa [length_imagePayload]

/-- R230: what `load` makes of memory, for an image that it accepts. -/
theorem mem_of_load {init : InitValues} {image : List Byte} {s : State} (h : load init image = some s) :
    imageAccepted image = true ∧
      s.mem = Memory.writeWords init.mem (imageOrigin image).toNat (imagePayload image) := by
  unfold load at h
  split at h
  next haccepted =>
    obtain rfl := Option.some.inj h
    exact ⟨haccepted, rfl⟩
  next => cases h

/-- Settles O51: `load` writes only the payload, and that inside the machine. -/
theorem resetAndLoadAreCanonical : Obligations.ResetAndLoadAreCanonical := by
  unfold Obligations.ResetAndLoadAreCanonical
  refine ⟨rfl, fun init image s hinit h => ?_⟩
  obtain ⟨haccepted, hmem⟩ := mem_of_load h
  rw [State.Inv, hmem]
  exact Memory.wf_writeWords (payload_end_le_of_imageAccepted haccepted) hinit

/-- Settles O59: the image of two bytes has no payload, so `load` keeps memory and sets `pc` to its one word. -/
theorem resetIsRunningWithEmptyOutput : Obligations.ResetIsRunningWithEmptyOutput := by
  unfold Obligations.ResetIsRunningWithEmptyOutput
  exact ⟨rfl, rfl, rfl⟩

end Sys2Proof.Proofs
end

section
/-! PROOFS. The one-word read and write (20_memory.md R42 to R48): the machine's read is the spec's read relation, and
what it answers and leaves at the keyboard cells. -/

namespace Sys2Proof.Proofs
open Sys2Proof Sys2Proof.Machine

/-! ### The poll -/

/-- A poll writes memory and nothing else. -/
theorem keyboardWrite_eq (s : State) (b : Byte) : s.keyboardWrite b = { s with mem := (s.keyboardWrite b).mem } := by
  unfold State.keyboardWrite
  split <;> rfl

/-- R45: a poll that received a byte writes the two keyboard cells, any other the status cell alone. -/
theorem keyboardWrite_cell_of_ne (s : State) {a : Word} {b : Byte} (hstatus : a ≠ kbsrAddr)
    (hdata : b = 0x00#8 ∨ a ≠ kbdrAddr) : (s.keyboardWrite b).cell a = s.cell a := by
  have hnot : ¬(a = kbdrAddr ∧ b ≠ 0x00#8) := by rintro ⟨ha, hb⟩; exact hdata.elim hb fun h => h ha
  rw [State.keyboardWrite_cell, if_neg hstatus, if_neg hnot]

/-- R45: the word a poll reads, and the state it leaves, when the device answers `b`. -/
theorem memRead_kbsr_of_next {s : State} {b : Byte} {d : Device} (hd : Device.next s.dev = some (b, d)) :
    s.memRead kbsrAddr =
      some (if b = 0x00#8 then 0x0000#16 else 0x8000#16, ({ s with dev := d } : State).keyboardWrite b) := by
  rw [State.memRead_keyboard, hd, Option.map_some, State.keyboardWrite_cell, if_pos rfl]

/-- R52: a poll that is never answered gives no read. -/
theorem memRead_kbsr_of_next_none {s : State} (hd : Device.next s.dev = none) : s.memRead kbsrAddr = none := by
  rw [State.memRead_keyboard, hd, Option.map_none]

/-! ### The read relation -/

/-- The machine answers every read that the spec's read relation allows. -/
theorem memRead_of_reads {s s1 : State} {a v : Word} (h : Reads s a v s1) : s.memRead a = some (v, s1) := by
  cases h with
  | plain _ ha => exact State.memRead_plain s ha
  | ready b d hd hb =>
    rw [memRead_kbsr_of_next hd, if_neg hb, State.keyboardWrite_ready _ hb]
    rfl
  | idle d hd =>
    rw [memRead_kbsr_of_next hd, if_pos rfl, State.keyboardWrite_idle]
    rfl

theorem memRead_eq_some_iff_reads {s t : State} {a v : Word} : s.memRead a = some (v, t) ↔ Reads s a v t :=
  ⟨reads_of_memRead, memRead_of_reads⟩

/-- R45, R48: the status cell reads as one of the two words a poll writes. -/
theorem word_of_reads_kbsr {s t : State} {v : Word} (h : Reads s kbsrAddr v t) : v = 0x8000#16 ∨ v = 0x0000#16 := by
  cases h with
  | plain _ ha => exact absurd rfl ha
  | ready => exact .inl rfl
  | idle => exact .inr rfl

/-! ### The statements -/

/-- Settles O3, by the read of a cell after a write. -/
theorem memWriteHasNoSideEffect : Obligations.MemWriteHasNoSideEffect := by
  unfold Obligations.MemWriteHasNoSideEffect
  refine fun s a v => ⟨?_, fun b hb => ?_, rfl⟩
  · rw [State.cell_memWrite, if_pos rfl]
  · have hne : b ≠ a := by simpa using hb
    rw [State.cell_memWrite, if_neg hne]

/-- Settles O4: the state after a poll that the device answers is that of `keyboardWrite`. -/
theorem keyboardReadPolls : Obligations.KeyboardReadPolls := by
  unfold Obligations.KeyboardReadPolls
  refine ⟨fun s b d hd hb => ?_, fun s d hd => ?_, fun s hd => memRead_kbsr_of_next_none hd,
    fun s a ha => State.memRead_plain s ha⟩
  · refine ⟨_, (memRead_kbsr_of_next hd).trans (by rw [if_neg hb]), ?_, ?_, fun a ha => ?_, keyboardWrite_eq _ b⟩
    · simp [State.keyboardWrite_cell, kbsrAddr_eq, hb]
    · simp [State.keyboardWrite_cell, kbsrAddr_eq, kbdrAddr_eq, hb]
    · obtain ⟨hstatus, hdata⟩ : a ≠ kbsrAddr ∧ a ≠ kbdrAddr := by simpa [kbsrAddr_eq, kbdrAddr_eq] using ha
      exact keyboardWrite_cell_of_ne { s with dev := d } hstatus (.inr hdata)
  · refine ⟨_, (memRead_kbsr_of_next hd).trans (by rw [if_pos rfl]), ?_, fun a ha => ?_, keyboardWrite_eq _ _⟩
    · simp [State.keyboardWrite_cell, kbsrAddr_eq]
    · have hstatus : a ≠ kbsrAddr := by simpa [kbsrAddr_eq] using ha
      exact keyboardWrite_cell_of_ne { s with dev := d } hstatus (.inl rfl)

/-- Settles O5: one direction per lemma above, by the three rules of `Reads` and by the two kinds of address. -/
theorem memReadIsTheReadRelation : Obligations.MemReadIsTheReadRelation := by
  unfold Obligations.MemReadIsTheReadRelation
  exact fun s t a v => memRead_eq_some_iff_reads

/-- Settles O6: whatever was stored, the status cell reads as what the poll wrote, and the data cell reads plainly. -/
theorem storedStatusWordIsNeverRead : Obligations.StoredStatusWordIsNeverRead := by
  unfold Obligations.StoredStatusWordIsNeverRead
  refine ⟨fun s t v w h => word_of_reads_kbsr (reads_of_memRead h), fun s v => ?_⟩
  rw [← kbdrAddr_eq, State.memRead_plain _ kbsrAddr_ne_kbdrAddr.symm, State.cell_memWrite, if_pos rfl]

end Sys2Proof.Proofs
end

section
/-! PROOFS. What an instruction that goes on leaves of memory (20_memory.md R41, R43, R47): its reads touch at most the
two keyboard cells, and its one store is at the address it computes. -/

namespace Sys2Proof.Proofs
open Sys2Proof Sys2Proof.Machine

/-! ### Reads -/

/-- What any number of reads may have done to memory: polls write the two keyboard cells and keep the canonical form. -/
structure PollFrame (s t : State) : Prop where
  inv : s.Inv → t.Inv
  cells : SameMemBut [kbsrAddr, kbdrAddr] s t

theorem PollFrame.of_mem_eq {s t : State} (h : t.mem = s.mem) : PollFrame s t where
  inv hs := by rwa [State.Inv, h]
  cells a _ := by rw [State.cell, State.cell, h]

theorem PollFrame.trans {s t u : State} (h : PollFrame s t) (k : PollFrame t u) : PollFrame s u where
  inv hs := k.inv (h.inv hs)
  cells a ha := (k.cells a ha).trans (h.cells a ha)

theorem sameMemBut_keyboard {s t : State} (h : ∀ b, b ≠ kbsrAddr → b ≠ kbdrAddr → t.cell b = s.cell b) :
    SameMemBut [kbsrAddr, kbdrAddr] s t := by
  intro b hb
  obtain ⟨hstatus, hdata⟩ : b ≠ kbsrAddr ∧ b ≠ kbdrAddr := by simpa using hb
  exact h b hstatus hdata

theorem PollFrame.of_memRead {s t : State} {a v : Word} (h : s.memRead a = some (v, t)) : PollFrame s t :=
  have ⟨_, _, _, _, _, hinv, hcells, _⟩ := State.memRead_frame h
  ⟨hinv, sameMemBut_keyboard hcells⟩

theorem PollFrame.of_stringLoop {bytes : Word → List Byte} {n : Nat} {a : Word} {s t : State}
    (h : stringLoop bytes n a s = .next t) : PollFrame s t :=
  have ⟨_, _, _, _, _, hinv, hcells⟩ := stringLoop_next h
  ⟨hinv, sameMemBut_keyboard hcells⟩

/-! ### Instructions -/

/-- What instruction `i` did to memory when it went on from `s` to `t`. -/
inductive MemEffect (i : Instr) (s t : State) : Prop where
  /-- Nothing. -/
  | none (hmem : t.mem = s.mem)
  /-- Polls. -/
  | polls (htouch : touchesDevice i = true) (hpolls : PollFrame s t)
  /-- One store, which no read comes before. -/
  | store {a : Word} (v : Word) (hstore : StoresTo i s a) (hmem : t.mem = (s.memWrite a v).mem)
  /-- One store after polls. -/
  | pollsThenStore {s1 : State} {a : Word} (v : Word) (htouch : touchesDevice i = true) (hpolls : PollFrame s s1)
      (hstore : StoresTo i s a) (hmem : t.mem = (s1.memWrite a v).mem)

/-- No routine stores. -/
theorem pollFrame_routine {tag : TrapTag} {spare : BitVec 4} {s t : State}
    (h : exec (routine spare tag) s = .next t) : PollFrame s t := by
  cases tag with
  | getc | inp =>
    obtain ⟨b, d, -, hk⟩ := State.inputThen_next h
    obtain rfl := Host.Outcome.next.inj hk
    exact .of_mem_eq rfl
  | out | halt =>
    obtain rfl := Host.Outcome.next.inj h
    exact .of_mem_eq rfl
  | puts | putsp => exact .trans (.of_mem_eq (State.trapEntry_mem trapSavesR7 s)) (.of_stringLoop h)

theorem pollFrame_trap {v : Byte} {spare : BitVec 4} {s t : State} (h : exec (.trap v spare) s = .next t) :
    PollFrame s t := by
  cases hv : decodeTrap v with
  | none => rw [exec_trap_of_decodeTrap_none hv] at h; cases h
  | some tag =>
    obtain rfl := eq_routineVector_of_decodeTrap hv
    rw [exec_trap_routineVector] at h
    exact pollFrame_routine h

/-- What any instruction that goes on did to memory. -/
theorem exec_memEffect {i : Instr} {s t : State} (h : exec i s = .next t) : MemEffect i s t := by
  cases i with
  | br | addReg | addImm | jsr | jsrr | andReg | andImm | notReg | jmp | lea | ret | out | halt =>
    obtain rfl := Host.Outcome.next.inj h
    exact .none rfl
  | ld | ldr =>
    obtain ⟨v, s1, hread, hk⟩ := State.readThen_next h
    obtain rfl := Host.Outcome.next.inj hk
    exact .polls rfl (.trans (.of_memRead hread) (.of_mem_eq rfl))
  | ldi =>
    obtain ⟨addr, s1, hptr, hk⟩ := State.readThen_next h
    obtain ⟨v, s2, hread, hk⟩ := State.readThen_next hk
    obtain rfl := Host.Outcome.next.inj hk
    exact .polls rfl (.trans (.of_memRead hptr) (.trans (.of_memRead hread) (.of_mem_eq rfl)))
  | st | str =>
    obtain rfl := Host.Outcome.next.inj h
    exact .store _ rfl rfl
  | sti =>
    obtain ⟨addr, s1, hptr, hk⟩ := State.readThen_next h
    obtain rfl := Host.Outcome.next.inj hk
    exact .pollsThenStore _ rfl (.of_memRead hptr) ⟨s1, reads_of_memRead hptr⟩ rfl
  | rti | reserved => cases h
  | trap => exact .polls rfl (pollFrame_trap h)
  | getc spare => exact .polls rfl (pollFrame_routine (tag := .getc) h)
  | puts spare => exact .polls rfl (pollFrame_routine (tag := .puts) h)
  | inp spare => exact .polls rfl (pollFrame_routine (tag := .inp) h)
  | putsp spare => exact .polls rfl (pollFrame_routine (tag := .putsp) h)

/-- A store at a word address keeps the canonical form. -/
theorem inv_of_mem_eq_memWrite {s t : State} {a v : Word} (h : t.mem = (s.memWrite a v).mem) (hs : s.Inv) : t.Inv := by
  rw [State.Inv, h]
  exact State.wf_memWrite a v hs

theorem MemEffect.inv {i : Instr} {s t : State} (h : MemEffect i s t) (hs : s.Inv) : t.Inv := by
  cases h with
  | none hmem => exact (PollFrame.of_mem_eq hmem).inv hs
  | polls _ hpolls => exact hpolls.inv hs
  | store v _ hmem => exact inv_of_mem_eq_memWrite hmem hs
  | pollsThenStore v _ hpolls _ hmem => exact inv_of_mem_eq_memWrite hmem (hpolls.inv hs)

/-- A cell other than the one stored to reads as before the store. -/
theorem cell_of_mem_eq_memWrite {s t : State} {a b v : Word} (h : t.mem = (s.memWrite a v).mem) (hne : b ≠ a) :
    t.cell b = s.cell b := by
  have hcell : t.cell b = (s.memWrite a v).cell b := by rw [State.cell, State.cell, h]
  rw [hcell, State.cell_memWrite, if_neg hne]

/-- The address an instruction stores to is not one it does not store to. -/
theorem ne_of_storesTo {i : Instr} {s : State} {a b : Word} (ha : StoresTo i s a) (hb : ¬StoresTo i s b) : b ≠ a :=
  fun h => hb (h ▸ ha)

/-- R43, R47. -/
theorem MemEffect.cell_eq {i : Instr} {s t : State} (h : MemEffect i s t) {a : Word} (ha : ¬StoresTo i s a)
    (hkeyboard : touchesDevice i = true → a ∉ [kbsrAddr, kbdrAddr]) : t.cell a = s.cell a := by
  cases h with
  | none hmem => rw [State.cell, State.cell, hmem]
  | polls htouch hpolls => exact hpolls.cells a (hkeyboard htouch)
  | store v hstore hmem => exact cell_of_mem_eq_memWrite hmem (ne_of_storesTo hstore ha)
  | pollsThenStore v htouch hpolls hstore hmem =>
    rw [cell_of_mem_eq_memWrite hmem (ne_of_storesTo hstore ha), hpolls.cells a (hkeyboard htouch)]

/-! ### The statements -/

/-- Settles O50: the fetch polls at most, and what it runs polls and stores at word addresses. -/
theorem everyStepKeepsCanonicalMemory : Obligations.EveryStepKeepsCanonicalMemory := by
  unfold Obligations.EveryStepKeepsCanonicalMemory
  intro s t hs h
  obtain ⟨-, ir, s1, hfetch, hexec⟩ := step_next h
  have hfetched : s1.Inv := (PollFrame.of_memRead hfetch).inv hs
  exact (exec_memEffect hexec).inv hfetched

/-- Settles O47: an instruction that does not read cannot poll. -/
theorem memoryChangesOnlyByStoresAndPolls : Obligations.MemoryChangesOnlyByStoresAndPolls := by
  unfold Obligations.MemoryChangesOnlyByStoresAndPolls
  intro s t i a h ha
  have heffect := exec_memEffect h
  refine ⟨fun hstatus hdata => heffect.cell_eq ha fun _ => ?_, fun hquiet => heffect.cell_eq ha fun htouch => ?_⟩
  · simpa using ⟨hstatus, hdata⟩
  · simp [hquiet] at htouch

end Sys2Proof.Proofs
end

section
/-! PROOFS. Instructions and the device port (20_memory.md R49, R50, R52): which never meet it, and where a `read_byte`
call that is never answered leaves no next state. -/

namespace Sys2Proof.Proofs
open Sys2Proof Sys2Proof.Machine

/-- Settles O49: no arm but those of the readers mentions the device. -/
theorem onlyReadersMeetTheDevice : Obligations.OnlyReadersMeetTheDevice := by
  unfold Obligations.OnlyReadersMeetTheDevice
  intro s t i d htouch h
  cases i with
  | br | addReg | addImm | st | jsr | jsrr | andReg | andImm | str | notReg | jmp | lea | ret | out | halt =>
    obtain rfl := Host.Outcome.next.inj h
    exact ⟨rfl, rfl⟩
  | rti | reserved => cases h
  | ld | ldi | ldr | sti | getc | puts | inp | putsp | trap => cases htouch

/-! ### One call -/

theorem readThen_kbsr_silent {s : State} (k : Word → State → Result) (hd : Device.next s.dev = none) :
    s.readThen kbsrAddr k = .fault .deviceSilent := by
  rw [State.readThen, memRead_kbsr_of_next_none hd]

theorem inputThen_silent {s : State} (k : Byte → State → Result) (hd : Device.next s.dev = none) :
    s.inputThen k = .fault .deviceSilent := by
  rw [State.inputThen, State.devRead, hd]

/-! ### The bound of a string that comes to a silent poll -/

/-- A burst that never ends answers with a byte, and goes on. -/
theorem burst_forever_of_next {d e : Device} {b : Byte} (h : Device.next d = some (b, e)) (hd : d.burst = .forever) :
    e.burst = .forever := by
  obtain ⟨script, burst, source, calls⟩ := d
  obtain rfl : burst = .forever := hd
  cases script <;> cases h <;> rfl

/-- How many bytes other than 0x00 a device has before its first pause; of a burst that never ends, the script's only. -/
def bytesToPause (d : Device) : Nat := d.script.length + burstBytes d.burst

/-- A call answered with a byte other than 0x00 brings the pause of the burst nearer. -/
theorem bytesToPause_lt_of_next {d e : Device} {b : Byte} (h : Device.next d = some (b, e)) (hb : b ≠ 0x00#8)
    (hpauses : d.burst ≠ .forever) : bytesToPause e < bytesToPause d := by
  obtain ⟨script, burst, source, calls⟩ := d
  cases script with
  | cons c rest =>
    cases h
    simp only [bytesToPause, List.length_cons]
    omega
  | nil =>
    rcases burst with (_ | n) | (_ | n) | _
    · cases h; exact absurd rfl hb
    · cases h; simp [bytesToPause, burstBytes]
    · cases h
    · cases h; simp [bytesToPause, burstBytes]
    · exact absurd rfl hpauses

/-- A string that comes to a poll that is never answered does not end in a burst that never ends. -/
theorem burst_ne_forever_of_stringSilent {bytes : Word → List Byte} {a : Word} {s : State} (h : StringSilent bytes a s) :
    s.dev.burst ≠ .forever := by
  induction h with
  | here hd =>
    rw [((Device.next_none_iff _).mp hd).2]
    exact nofun
  | go hread hw _ ih =>
    cases hread with
    | plain _ _ => exact ih
    | ready b d hd hb => exact fun hforever => ih (burst_forever_of_next hd hforever)
    | idle d hd => exact absurd rfl hw

/-- Within a lap of memory per byte before the pause, and the words up to the next poll, the loop meets the silence. -/
theorem stringLoop_of_stringSilent {bytes : Word → List Byte} {a : Word} {s : State} (h : StringSilent bytes a s)
    {n : Nat} (hn : 65536 * bytesToPause s.dev + (kbsrAddr - a).toNat < n) :
    stringLoop bytes n a s = .fault .deviceSilent := by
  induction h generalizing n with
  | here hd =>
    obtain ⟨n, rfl⟩ : ∃ m, n = m + 1 := ⟨n - 1, by omega⟩
    exact stringLoop_silent (memRead_kbsr_of_next_none hd)
  | @go a w s s1 hread hw rest ih =>
    obtain ⟨n, rfl⟩ : ∃ m, n = m + 1 := ⟨n - 1, by omega⟩
    rw [stringLoop_go (memRead_of_reads hread) hw]
    apply ih
    cases hread with
    | plain _ ha =>
      have hnearer : (kbsrAddr - (a + 1#16)).toNat + 1 = (kbsrAddr - a).toNat := by
        rw [kbsrAddr_eq] at ha ⊢
        bv_omega
      rw [State.emit_dev]
      omega
    | ready b d hd hb =>
      have hpauses : s.dev.burst ≠ .forever := fun hforever => burst_ne_forever_of_stringSilent rest (burst_forever_of_next hd hforever)
      have hfewer : bytesToPause d < bytesToPause s.dev := bytesToPause_lt_of_next hd hb hpauses
      have hlap := (kbsrAddr - (kbsrAddr + 1#16)).isLt
      rw [State.emit_dev]
      show 65536 * bytesToPause d + _ < n
      omega
    | idle d hd => exact absurd rfl hw

/-- R52: the bound of the string routines is large enough to come to the silence. -/
theorem stringLoop_bound_of_stringSilent {bytes : Word → List Byte} {a : Word} {s : State}
    (h : StringSilent bytes a s) : stringLoop bytes (stringBound s) a s = .fault .deviceSilent := by
  have hlap := (kbsrAddr - a).isLt
  apply stringLoop_of_stringSilent h
  simp only [bytesToPause, stringBound]
  omega

/-! ### The routines -/

theorem putsBytes_eq_lowByte : putsBytes = lowByte := funext fun w => by rw [putsBytes, lowByte, lo8_eq_setWidth]

theorem putspBytes_eq_bothBytes : putspBytes = bothBytes := funext fun w => by
  simp only [putspBytes, bothBytes, hi8_eq_zero_iff]
  rw [lo8_eq_setWidth, hi8_eq_setWidth]

/-- Trap entry leaves R0, so the string starts where R0 points. -/
theorem reg_zero_trapEntry (saves : Bool) (s : State) : (s.trapEntry saves).reg 0 = s.reg 0 := by
  rw [State.trapEntry_reg, if_neg (by decide)]

theorem exec_puts_of_stringSilent {s : State} {i : Instr} {x : BitVec 4} (hi : i = .puts x ∨ i = .trap 0x22#8 x)
    (h : StringSilent lowByte (s.reg 0) (s.trapEntry trapSavesR7)) : exec i s = .fault .deviceSilent := by
  have hexec : exec i s = trapPuts (s.trapEntry trapSavesR7) := by rcases hi with rfl | rfl <;> rfl
  rw [hexec, trapPuts, putsBytes_eq_lowByte, reg_zero_trapEntry]
  exact stringLoop_bound_of_stringSilent h

theorem exec_putsp_of_stringSilent {s : State} {i : Instr} {x : BitVec 4} (hi : i = .putsp x ∨ i = .trap 0x24#8 x)
    (h : StringSilent bothBytes (s.reg 0) (s.trapEntry trapSavesR7)) : exec i s = .fault .deviceSilent := by
  have hexec : exec i s = trapPutsp (s.trapEntry trapSavesR7) := by rcases hi with rfl | rfl <;> rfl
  rw [hexec, trapPutsp, putspBytes_eq_bothBytes, reg_zero_trapEntry]
  exact stringLoop_bound_of_stringSilent h

/-! ### The statement -/

section
variable {s : State} (hd : Device.next s.dev = none)
include hd

theorem exec_input_silent (x : BitVec 4) :
    exec (.getc x) s = .fault .deviceSilent ∧ exec (.trap 0x20#8 x) s = .fault .deviceSilent ∧
      exec (.inp x) s = .fault .deviceSilent ∧ exec (.trap 0x23#8 x) s = .fault .deviceSilent :=
  have getc := inputThen_silent (s := s.trapEntry trapSavesR7) _ hd
  have inp := inputThen_silent (s := (s.trapEntry trapSavesR7).emit inPrompt) _ hd
  ⟨getc, getc, inp, inp⟩

theorem exec_pcRel9_silent {off : BitVec 9} (ha : s.pc + sext off = kbsrAddr) (dr : Reg) :
    exec (.ld dr off) s = .fault .deviceSilent ∧ exec (.ldi dr off) s = .fault .deviceSilent ∧
      exec (.sti dr off) s = .fault .deviceSilent := by
  have hread (k : Word → State → Result) : s.readThen (s.pcRel9 off) k = .fault .deviceSilent := by
    rw [State.pcRel9, ha]
    exact readThen_kbsr_silent k hd
  exact ⟨hread _, hread _, hread _⟩

theorem exec_ldr_silent {base : Reg} {off : BitVec 6} (ha : s.reg base + sext off = kbsrAddr) (dr : Reg) :
    exec (.ldr dr base off) s = .fault .deviceSilent := by
  show s.readThen (s.baseOff6 base off) _ = _
  rw [State.baseOff6, ha]
  exact readThen_kbsr_silent _ hd

/-- A string that starts at the status cell comes to the unanswered poll at once. -/
theorem stringSilent_of_reg_zero (bytes : Word → List Byte) (ha : s.reg 0 = kbsrAddr) :
    StringSilent bytes (s.reg 0) (s.trapEntry trapSavesR7) := by
  rw [ha]
  exact .here hd

theorem step_silent (hrun : s.run = .running) (hpc : s.pc = kbsrAddr) : step s = .fault .deviceSilent := by
  unfold step
  rw [hrun]
  show s.readThen s.pc _ = _
  rw [hpc]
  exact readThen_kbsr_silent _ hd

end

/-- The second read of LDI. -/
theorem exec_ldi_of_pointer_silent {s s1 : State} {off : BitVec 9} (hptr : Reads s (s.pc + sext off) kbsrAddr s1)
    (hd : Device.next s1.dev = none) (dr : Reg) : exec (.ldi dr off) s = .fault .deviceSilent :=
  (State.readThen_of_memRead _ (memRead_of_reads hptr)).trans (readThen_kbsr_silent _ hd)

/-- Settles O38: every caller of `read_byte` is one of the two waits, `readThen` and `inputThen`, or the string loop,
whose bound is no shorter than the way to the silence. -/
theorem silentDeviceLeavesNoNextState : Obligations.SilentDeviceLeavesNoNextState := by
  unfold Obligations.SilentDeviceLeavesNoNextState
  refine ⟨fun s hd => ⟨exec_input_silent hd, fun dr off ha => exec_pcRel9_silent hd ha dr,
      fun dr base off ha => exec_ldr_silent hd ha dr, fun x ha => ?_, step_silent hd⟩,
    fun s s1 dr off hptr hd => exec_ldi_of_pointer_silent hptr hd dr,
    fun s i x hi h => exec_puts_of_stringSilent hi h, fun s i x hi h => exec_putsp_of_stringSilent hi h⟩
  have low := stringSilent_of_reg_zero hd lowByte ha
  have both := stringSilent_of_reg_zero hd bothBytes ha
  exact ⟨exec_puts_of_stringSilent (x := x) (.inl rfl) low, exec_puts_of_stringSilent (.inr rfl) low,
    exec_putsp_of_stringSilent (x := x) (.inl rfl) both, exec_putsp_of_stringSilent (.inr rfl) both⟩

end Sys2Proof.Proofs
end

section
/-! PROOFS. Self-modifying code (20_memory.md R59): what a store put at `pc` is what the next step fetches. -/

namespace Sys2Proof.Proofs
open Sys2Proof Sys2Proof.Machine

/-- R80: a step from Running below the top of memory is the execution of the word it reads at `pc`. -/
theorem step_of_memRead {s s1 : State} {ir : Word} (hrun : s.run = .running) (htop : s.pc ≠ 0xFFFF#16)
    (hread : s.memRead s.pc = some (ir, s1)) : step s = exec (decode ir) (s1.setPc (s.pc + 1#16)) := by
  unfold step
  rw [hrun]
  show s.fetchThen pcWrapPolicy _ = _
  rw [State.fetchThen, State.readThen_of_memRead _ hread, if_neg htop]

/-- A step after a store at `pc`, neither the status cell nor the top of memory, runs the stored word. -/
theorem step_memWrite_pc {s : State} (v : Word) (hrun : s.run = .running) (hstatus : s.pc ≠ kbsrAddr)
    (htop : s.pc ≠ 0xFFFF#16) :
    step (s.memWrite s.pc v) = exec (decode v) ((s.memWrite s.pc v).setPc (s.pc + 1#16)) := by
  have hread : (s.memWrite s.pc v).memRead s.pc = some (v, s.memWrite s.pc v) := by
    rw [State.memRead_plain _ hstatus, State.cell_memWrite, if_pos rfl]
  exact step_of_memRead hrun htop hread

/-- Settles O19: each of the three stores goes on to a state that is one word written at `pc`. -/
theorem storeIsSeenByTheNextFetch : Obligations.StoreIsSeenByTheNextFetch := by
  unfold Obligations.StoreIsSeenByTheNextFetch
  refine ⟨fun s t sr base off hrun hstatus htop ha h => ?_, fun s t spare off hrun hstatus htop ha h => ?_,
    fun s s1 t sr off hrun hstatus htop hptr h => ?_⟩
  · obtain rfl := Host.Outcome.next.inj h
    rw [State.baseOff6, ha]
    exact step_memWrite_pc _ hrun hstatus htop
  · obtain rfl := Host.Outcome.next.inj h
    rw [State.pcRel9, ha]
    exact step_memWrite_pc _ hrun hstatus htop
  · have hread := memRead_of_reads hptr
    have hcore := SameCore.of_memRead hread
    obtain rfl := Host.Outcome.next.inj ((State.readThen_of_memRead _ hread).symm.trans h)
    rw [← hcore.pc] at hstatus htop ⊢
    rw [← hcore.reg]
    exact step_memWrite_pc _ (hcore.run.trans hrun) hstatus htop

end Sys2Proof.Proofs
end

section
/-! PROOFS. Words and instructions (30_encoding.md R70 to R79): `decode` and `encode` are inverse to each other. -/

namespace Sys2Proof.Proofs
open Sys2Proof Sys2Proof.Machine Sys2Proof.Laws

/-! ### Fields of a word -/

@[simp] theorem extractLsb'_word {n : Nat} (fields : BitVec n) (h : n = 16) (lo len : Nat) :
    (word fields h).extractLsb' lo len = fields.extractLsb' lo len := BitVec.extractLsb'_cast

@[simp] theorem word_extractLsb' {n : Nat} (ir : Word) (h : n = 16) : word (ir.extractLsb' 0 n) h = ir := by
  subst h
  exact BitVec.extractLsb'_eq_self

/-- A field of one bit is that bit. -/
theorem extractLsb'_one (ir : Word) (lo : Nat) : ir.extractLsb' lo 1 = BitVec.ofBool (ir.getLsbD lo) := by
  apply BitVec.eq_of_getLsbD_eq
  intro i hi
  obtain rfl : i = 0 := by omega
  simp

/-- The opcode is the four bits that `decode` looks at. -/
theorem opcode_of_bits {ir : Word} {b15 b14 b13 b12 : Bool} (h15 : ir.getLsbD 15 = b15) (h14 : ir.getLsbD 14 = b14)
    (h13 : ir.getLsbD 13 = b13) (h12 : ir.getLsbD 12 = b12) :
    ir.extractLsb' 12 4 = BitVec.ofBool b15 ++ BitVec.ofBool b14 ++ BitVec.ofBool b13 ++ BitVec.ofBool b12 := by
  subst h15 h14 h13 h12
  simp only [← extractLsb'_one, BitVec.extractLsb'_append_extractLsb'_eq_extractLsb']

/-! ### JMP and TRAP, whose words may have a row of their own -/

/-- R91: a routine's name is another name of TRAP with its vector. -/
theorem encode_routine (tag : TrapTag) (spare : BitVec 4) :
    encode (routine spare tag) = encode (.trap (routineVector tag) spare) := by
  cases tag <;> rfl

/-- R91: a TRAP word is read as the routine that its vector names, if it names one. -/
theorem decodeTrapWord_eq (ir : Word) : decodeTrapWord ir = (decodeTrap (ir.extractLsb' 0 8)).elim
    (.trap (ir.extractLsb' 0 8) (ir.extractLsb' 8 4)) (routine (ir.extractLsb' 8 4)) := by
  simp only [decodeTrapWord]
  rcases decodeTrap (ir.extractLsb' 0 8) with _ | _ | _ | _ | _ | _ | _ <;> rfl

theorem encode_decodeTrapWord {ir : Word} (hop : ir.extractLsb' 12 4 = 0b1111#4) : encode (decodeTrapWord ir) = ir := by
  have htrap : encode (decodeTrapWord ir) = encode (.trap (ir.extractLsb' 0 8) (ir.extractLsb' 8 4)) := by
    rw [decodeTrapWord_eq]
    cases hv : decodeTrap (ir.extractLsb' 0 8) with
    | none => rfl
    | some tag => rw [eq_routineVector_of_decodeTrap hv]; exact encode_routine tag _
  rw [htrap, encode, ← hop]
  simp only [BitVec.extractLsb'_append_extractLsb'_eq_extractLsb', word_extractLsb']

theorem encode_decodeJmpWord {ir : Word} (hop : ir.extractLsb' 12 4 = 0b1100#4) : encode (decodeJmpWord ir) = ir := by
  have hjmp : encode (decodeJmpWord ir) = encode (.jmp (regField ir 6) (ir.extractLsb' 9 3) (ir.extractLsb' 0 6)) := by
    unfold decodeJmpWord
    split
    next hbase => rw [hbase]; rfl
    next => rfl
  rw [hjmp, encode, regField, regBits_regOf, ← hop]
  simp only [BitVec.extractLsb'_append_extractLsb'_eq_extractLsb', word_extractLsb']

theorem decode_encode_trap (v : Byte) (spare : BitVec 4) :
    decode (encode (.trap v spare)) = (decodeTrap v).elim (.trap v spare) (routine spare) := by
  have hword : decode (encode (.trap v spare)) = decodeTrapWord (encode (.trap v spare)) := by
    simp only [decode, encode, getLsbD_word, BitVec.getLsbD_append]
    rfl
  rw [hword, decodeTrapWord_eq]
  simp (disch := omega) only [encode, extractLsb'_word, BitVec.extractLsb'_append_eq_of_le,
    BitVec.extractLsb'_append_eq_of_add_le, BitVec.extractLsb'_eq_self, Nat.reduceSub]

theorem decode_encode_routine (tag : TrapTag) (spare : BitVec 4) :
    decode (encode (routine spare tag)) = routine spare tag := by
  rw [encode_routine, decode_encode_trap]
  cases tag <;> rfl

/-- R90: a JMP word through R7 is read as RET. -/
theorem decode_encode_jmp (base : Reg) (spareHi : BitVec 3) (spareLo : BitVec 6) :
    decode (encode (.jmp base spareHi spareLo)) =
      if base = 7 then .ret spareHi spareLo else .jmp base spareHi spareLo := by
  have hword : decode (encode (.jmp base spareHi spareLo)) = decodeJmpWord (encode (.jmp base spareHi spareLo)) := by
    simp only [decode, encode, getLsbD_word, BitVec.getLsbD_append]
    rfl
  rw [hword, decodeJmpWord, regField]
  simp (disch := omega) only [encode, extractLsb'_word, BitVec.extractLsb'_append_eq_of_le,
    BitVec.extractLsb'_append_eq_of_add_le, BitVec.extractLsb'_eq_self, regOf_regBits, Nat.reduceSub]

/-! ### The two directions -/

theorem decodeTrap_eq_none_iff {v : Byte} : decodeTrap v = none ↔ v ∉ trapVectors := by
  unfold decodeTrap
  split_ifs <;> simp_all [trapVectors]

/-- R77: no bit of a word is lost in decoding it. -/
theorem encode_decode (ir : Word) : encode (decode ir) = ir := by
  have h5 := extractLsb'_one ir 5
  have h11 := extractLsb'_one ir 11
  unfold decode
  split <;> rename_i h15 h14 h13 h12 <;> have hop := opcode_of_bits h15 h14 h13 h12 <;>
    simp only [BitVec.ofBool_true, BitVec.ofBool_false, BitVec.reduceAppend] at hop
  -- The arms by their opcodes: JMP (0xC) and TRAP (0xF); ADD, JSR and AND, each with a form bit; the others.
  case h_13 => exact encode_decodeJmpWord hop
  case h_16 => exact encode_decodeTrapWord hop
  case h_2 | h_5 | h_6 =>
    split <;> rename_i hform <;>
      simp only [hform, BitVec.ofBool_true, BitVec.ofBool_false, BitVec.ofNat_eq_ofNat] at h5 h11 <;>
      simp only [encode, regField, regBits_regOf, ← hop, ← h5, ← h11,
        BitVec.extractLsb'_append_extractLsb'_eq_extractLsb', word_extractLsb']
  all_goals
    simp only [encode, regField, regBits_regOf, ← hop, BitVec.extractLsb'_append_extractLsb'_eq_extractLsb',
      word_extractLsb']

/-- Log 19: a word that has a row of its own is read as that row. -/
theorem wellFormed_decode (ir : Word) : (decode ir).wellFormed = true := by
  have hword := encode_decode ir
  cases h : decode ir with
  | jmp base spareHi spareLo =>
    rw [h] at hword
    rw [← hword, decode_encode_jmp] at h
    split at h
    next => cases h
    next hbase => simpa [Instr.wellFormed] using hbase
  | trap v spare => simpa [Instr.wellFormed] using decodeTrap_eq_none_iff.mp (decodeTrap_of_decode h)
  | _ => rfl

/-- R71, R78: the arm of `decode` that the opcode gives reads each field where `encode` laid it. -/
theorem decode_encode {i : Instr} (h : i.wellFormed = true) : decode (encode i) = i := by
  cases i with
  | jmp base spareHi spareLo =>
    have hbase : base ≠ 7 := by simpa [Instr.wellFormed] using h
    rw [decode_encode_jmp, if_neg hbase]
  | ret spareHi spareLo => exact decode_encode_jmp 7 spareHi spareLo
  | trap v spare =>
    have hnone : decodeTrap v = none := decodeTrap_eq_none_iff.mpr (by simpa [Instr.wellFormed] using h)
    rw [decode_encode_trap, hnone, Option.elim_none]
  | getc spare => exact decode_encode_routine .getc spare
  | out spare => exact decode_encode_routine .out spare
  | puts spare => exact decode_encode_routine .puts spare
  | inp spare => exact decode_encode_routine .inp spare
  | putsp spare => exact decode_encode_routine .putsp spare
  | halt spare => exact decode_encode_routine .halt spare
  | br | addReg | addImm | ld | st | jsr | jsrr | andReg | andImm | ldr | str | rti | notReg | ldi | sti | reserved
  | lea =>
    -- The opcode and the form bit give the arm of `decode`; what is left are the fields of that arm.
    simp only [decode, encode, getLsbD_word, BitVec.getLsbD_append, reduceIte, Nat.reduceLT, Nat.reduceSub,
      BitVec.reduceGetLsb, Bool.false_eq_true]
    simp (disch := omega) only [regField, extractLsb'_word, BitVec.extractLsb'_append_eq_of_le,
      BitVec.extractLsb'_append_eq_of_add_le, BitVec.extractLsb'_eq_self, regOf_regBits, Nat.reduceSub]

/-- Settles O53: constructor by constructor, with JMP and TRAP apart, whose words may be read as RET or a routine. -/
theorem decodeOfEncodeIsTheInstruction : Obligations.DecodeOfEncodeIsTheInstruction := by
  unfold Obligations.DecodeOfEncodeIsTheInstruction
  exact fun i h => decode_encode h

/-- Settles O54: opcode by opcode, the fields that `decode` reads lie side by side and make up the word. -/
theorem encodeOfDecodeIsTheWord : Obligations.EncodeOfDecodeIsTheWord := by
  unfold Obligations.EncodeOfDecodeIsTheWord
  exact fun w => ⟨wellFormed_decode w, encode_decode w⟩

end Sys2Proof.Proofs
end

section
/-! PROOFS. The opcode table (30_encoding.md R72): its base rows part the words, and a word lies in the row of the
instruction it is read as. -/

namespace Sys2Proof.Proofs
open Sys2Proof Sys2Proof.Machine Sys2Proof.Laws

theorem has_iff {r : Row} {w : Word} : r.has w = true ↔ w &&& r.mask = r.pattern := beq_iff_eq

/-- R72: the word of an instruction lies in the instruction's row. -/
theorem encode_and_mask (i : Instr) : encode i &&& i.row.mask = i.row.pattern := by
  cases i with
  | br => exact TableRow.br ..
  | addReg => exact TableRow.addReg ..
  | addImm => exact TableRow.addImm ..
  | ld => exact TableRow.ld ..
  | st => exact TableRow.st ..
  | jsr => exact TableRow.jsr ..
  | jsrr => exact TableRow.jsrr ..
  | andReg => exact TableRow.andReg ..
  | andImm => exact TableRow.andImm ..
  | ldr => exact TableRow.ldr ..
  | str => exact TableRow.str ..
  | rti => exact TableRow.rti ..
  | notReg => exact TableRow.notReg ..
  | ldi => exact TableRow.ldi ..
  | sti => exact TableRow.sti ..
  | jmp => exact TableRow.jmp ..
  | reserved => exact TableRow.reserved ..
  | lea => exact TableRow.lea ..
  | trap => exact TableRow.trap ..
  | ret => exact TableRow.ret ..
  | getc => exact TableRow.getc ..
  | out => exact TableRow.out ..
  | puts => exact TableRow.puts ..
  | inp => exact TableRow.inp ..
  | putsp => exact TableRow.putsp ..
  | halt => exact TableRow.halt ..

theorem row_decode_has (w : Word) : (decode w).row.has w = true := by
  have hrow := encode_and_mask (decode w)
  rwa [encode_decode, ← has_iff] at hrow

/-- Row `r` fixes every bit that row `q` fixes, to the same value. -/
def RowRefines (r q : Row) : Prop := r.mask &&& q.mask = q.mask ∧ r.pattern &&& q.mask = q.pattern

theorem RowRefines.has {r q : Row} (h : RowRefines r q) {w : Word} (hw : r.has w = true) : q.has w = true := by
  obtain ⟨hmask, hpattern⟩ := h
  rw [has_iff] at hw ⊢
  rw [← hmask, ← BitVec.and_assoc, hw, hpattern]

/-- The base row of an instruction: its own row, but JMP's for RET and TRAP's for the six routines (R90, R91). -/
def baseRow : Instr → Row
  | .ret _ _ => ⟨0xF000#16, 0xC000#16⟩
  | .getc _ | .out _ | .puts _ | .inp _ | .putsp _ | .halt _ => ⟨0xF000#16, 0xF000#16⟩
  | i => i.row

theorem baseRow_mem (i : Instr) : baseRow i ∈ baseRows := by
  cases i <;> exact List.mem_of_elem_eq_true rfl

theorem RowRefines.row_self (i : Instr) : RowRefines i.row i.row :=
  ⟨BitVec.and_self, by rw [← encode_and_mask i, BitVec.and_assoc, BitVec.and_self]⟩

theorem row_refines_baseRow (i : Instr) : RowRefines i.row (baseRow i) := by
  cases i with
  | ret | getc | out | puts | inp | putsp | halt =>
    simp only [RowRefines, Instr.row, baseRow]
    decide
  | _ => exact RowRefines.row_self _

/-- Rows that ask different values of a bit that both fix have no word in common. -/
theorem not_has_both {r q : Row} (h : r.pattern &&& q.mask ≠ q.pattern &&& r.mask) {w : Word}
    (hr : r.has w = true) : ¬q.has w = true := by
  intro hq
  rw [has_iff] at hr hq
  rw [← hr, ← hq, BitVec.and_assoc, BitVec.and_assoc, BitVec.and_comm r.mask] at h
  exact h rfl

/-- Any two base rows ask different values of some bit that both fix. -/
theorem baseRows_pairwise : baseRows.Pairwise fun r q => r.pattern &&& q.mask ≠ q.pattern &&& r.mask := by decide

/-- A list with a member and no two members is of length one. -/
theorem length_eq_one_of_pairwise_false {α : Type} {l : List α} {a : α} (ha : a ∈ l)
    (h : l.Pairwise fun _ _ => False) : l.length = 1 := by
  match l with
  | [_] => rfl
  | b :: c :: _ => exact (List.rel_of_pairwise_cons h (List.mem_cons_self ..)).elim

/-- Settles O55: a word has the base row that the row of its instruction refines, and no two base rows share a word. -/
theorem baseRowsPartitionTheWords : Obligations.BaseRowsPartitionTheWords := by
  unfold Obligations.BaseRowsPartitionTheWords
  refine fun w => ⟨?_, row_decode_has w⟩
  have hbase : baseRow (decode w) ∈ baseRows.filter fun r => r.has w :=
    List.mem_filter.mpr ⟨baseRow_mem _, (row_refines_baseRow _).has (row_decode_has w)⟩
  refine length_eq_one_of_pairwise_false hbase ?_
  rw [List.pairwise_filter]
  exact baseRows_pairwise.imp fun hapart hr hq => not_has_both hapart hr hq

end Sys2Proof.Proofs
end

section
/-! PROOFS. Ignored bits (30_encoding.md R75): a word with ignored bits flipped is the word of the same instruction with
its spare fields flipped, and `exec` reads spare fields only to record the word of a fault. -/

namespace Sys2Proof.Proofs
open Sys2Proof Sys2Proof.Machine Sys2Proof.Laws

/-- The instruction with its spare fields flipped where `x` has a set bit. -/
def flipSpare (x : Word) : Instr → Instr
  | .addReg dr sr1 sr2 spare => .addReg dr sr1 sr2 (spare ^^^ x.extractLsb' 3 2)
  | .st spare off => .st (spare ^^^ x.extractLsb' 9 3) off
  | .jsrr base spareHi spareLo => .jsrr base (spareHi ^^^ x.extractLsb' 9 2) (spareLo ^^^ x.extractLsb' 0 6)
  | .andReg dr sr1 sr2 spare => .andReg dr sr1 sr2 (spare ^^^ x.extractLsb' 3 2)
  | .rti spare => .rti (spare ^^^ x.extractLsb' 0 12)
  | .notReg dr sr1 spare => .notReg dr sr1 (spare ^^^ x.extractLsb' 0 6)
  | .jmp base spareHi spareLo => .jmp base (spareHi ^^^ x.extractLsb' 9 3) (spareLo ^^^ x.extractLsb' 0 6)
  | .reserved spare => .reserved (spare ^^^ x.extractLsb' 0 12)
  | .trap v spare => .trap v (spare ^^^ x.extractLsb' 8 4)
  | .ret spareHi spareLo => .ret (spareHi ^^^ x.extractLsb' 9 3) (spareLo ^^^ x.extractLsb' 0 6)
  | .getc spare => .getc (spare ^^^ x.extractLsb' 8 4)
  | .out spare => .out (spare ^^^ x.extractLsb' 8 4)
  | .puts spare => .puts (spare ^^^ x.extractLsb' 8 4)
  | .inp spare => .inp (spare ^^^ x.extractLsb' 8 4)
  | .putsp spare => .putsp (spare ^^^ x.extractLsb' 8 4)
  | .halt spare => .halt (spare ^^^ x.extractLsb' 8 4)
  | i => i

/-- The bits of an instruction's word that its spare fields fill. -/
def spareBits : Instr → Word
  | .addReg _ _ _ _ | .andReg _ _ _ _ => 0x0018#16
  | .st _ _ => 0x0E00#16
  | .jsrr _ _ _ => 0x063F#16
  | .rti _ | .reserved _ => 0x0FFF#16
  | .notReg _ _ _ => 0x003F#16
  | .jmp _ _ _ | .ret _ _ => 0x0E3F#16
  | .trap _ _ | .getc _ | .out _ | .puts _ | .inp _ | .putsp _ | .halt _ => 0x0F00#16
  | _ => 0

/-- R75: the ignored bits of an instruction's word are those of its spare fields. -/
theorem ignoredBits_encode (i : Instr) : ignoredBits (encode i) = spareBits i := by
  cases i <;>
    simp only [ignoredBits, spareBits, encode, getLsbD_word, BitVec.getLsbD_append, reduceIte, Nat.reduceLT,
      Nat.reduceSub, BitVec.reduceGetLsb, Bool.false_eq_true]

/-- Flipping spare fields flips their bits of the word, and no other. -/
theorem encode_flipSpare (x : Word) (i : Instr) : encode (flipSpare x i) = encode i ^^^ (x &&& spareBits i) := by
  cases i with
  | br | addImm | ld | jsr | andImm | ldr | str | ldi | sti | lea => simp [flipSpare, spareBits]
  | addReg | st | jsrr | andReg | rti | notReg | jmp | reserved | trap | ret | getc | out | puts | inp | putsp | halt =>
    apply word_ext
    intro k hk
    simp only [encode, flipSpare, spareBits, getLsbD_word, BitVec.getLsbD_append, BitVec.getLsbD_xor,
      BitVec.getLsbD_and, BitVec.getLsbD_extractLsb']
    interval_cases k <;>
      simp only [reduceIte, Nat.reduceLT, Nat.reduceSub, Nat.reduceAdd, BitVec.reduceGetLsb, decide_true,
        Bool.true_and, Bool.and_true, Bool.and_false, Bool.xor_false]

theorem wellFormed_flipSpare (x : Word) (i : Instr) : (flipSpare x i).wellFormed = i.wellFormed := by
  cases i <;> rfl

/-- R75: with ignored bits flipped, a word is read as the same instruction with spare fields flipped. -/
theorem decode_flipIgnored (w x : Word) : decode (w ^^^ (x &&& ignoredBits w)) = flipSpare x (decode w) := by
  have hflip : encode (flipSpare x (decode w)) = w ^^^ (x &&& ignoredBits w) := by
    rw [encode_flipSpare, ← ignoredBits_encode, encode_decode]
  rw [← hflip, decode_encode (by rw [wellFormed_flipSpare, wellFormed_decode])]

theorem sameButWord_refl (r : Result) : SameButWord r r := by
  rcases r with s | (f | f | ⟨v, f⟩ | f | _ | _) | f <;> simp [SameButWord]

/-- No arm reads a spare field but to record the word of a fault. -/
theorem exec_flipSpare (x : Word) (i : Instr) (s : State) : SameButWord (exec i s) (exec (flipSpare x i) s) := by
  cases i with
  | rti | reserved => exact ⟨rfl, rfl⟩
  | trap v spare =>
    show SameButWord _ (exec (.trap v _) s)
    cases hv : decodeTrap v with
    | none =>
      rw [exec_trap_of_decodeTrap_none hv, exec_trap_of_decodeTrap_none hv]
      exact ⟨rfl, rfl, rfl⟩
    | some tag =>
      obtain rfl := eq_routineVector_of_decodeTrap hv
      cases tag <;> exact sameButWord_refl _
  | _ => exact sameButWord_refl _

/-- Settles O56: the flipped word is that of the same instruction but for its spare fields, which `exec` ignores. -/
theorem ignoredBitsNeverMatter : Obligations.IgnoredBitsNeverMatter := by
  unfold Obligations.IgnoredBitsNeverMatter
  intro w x s
  rw [decode_flipIgnored]
  exact exec_flipSpare x (decode w) s

end Sys2Proof.Proofs
end

section
/-! PROOFS. The step (30_encoding.md R80, R81): the fetch from 0xFFFF, and what any other fetch runs. -/

namespace Sys2Proof.Proofs
open Sys2Proof Sys2Proof.Machine

/-- Settles O35: 0xFFFF is not the status cell, so the fetch reads it plainly, and the policy is `fault`. -/
theorem fetchAtTopOfMemoryFaults : Obligations.FetchAtTopOfMemoryFaults := by
  unfold Obligations.FetchAtTopOfMemoryFaults
  intro s hrun htop
  have hread : s.memRead s.pc = some (s.cell 0xFFFF#16, s) := by
    rw [htop]
    exact State.memRead_plain s (by decide)
  unfold step
  rw [hrun]
  show s.fetchThen pcWrapPolicy _ = _
  rw [State.fetchThen, State.readThen_of_memRead _ hread, if_pos htop, htop]
  rfl

/-- Settles O39: the read that the spec's relation allows is the one the fetch makes. -/
theorem stepRunsTheFetchedInstruction : Obligations.StepRunsTheFetchedInstruction := by
  unfold Obligations.StepRunsTheFetchedInstruction
  rintro s s1 ir _ hrun htop hread rfl
  exact step_of_memRead hrun htop (memRead_of_reads hread)

/-- Settles O40: the state with the word placed is one word written at `pc` of the running machine. -/
theorem placedWordRunsNext : Obligations.PlacedWordRunsNext := by
  unfold Obligations.PlacedWordRunsNext
  intro s w hstatus htop
  have hplaced : s.withFetchWord 16 w.toNat = ({ s with run := .running } : State).memWrite s.pc w := by
    rw [State.withFetchWord, BitVec.ofNat_toNat, BitVec.setWidth_eq]
    rfl
  rw [hplaced]
  exact step_memWrite_pc (s := { s with run := .running }) w rfl hstatus htop

end Sys2Proof.Proofs
end

section
/-! PROOFS. Which instructions raise a fatal fault (30_encoding.md R76, 60_exceptions.md R204): every other one goes on
or, where the device or a string is at fault, never completes. -/

namespace Sys2Proof.Proofs
open Sys2Proof Sys2Proof.Machine

/-- No refusal and no fatal fault: the outcome is a next state, or that of a step that never completes. -/
inductive NoFatalFault : Result → Prop where
  | next (t : State) : NoFatalFault (.next t)
  | stuck (f : Fault) (h : f.code = none) : NoFatalFault (.fault f)

theorem NoFatalFault.readThen {s : State} {a : Word} {k : Word → State → Result} (hk : ∀ v t, NoFatalFault (k v t)) :
    NoFatalFault (s.readThen a k) := by
  unfold State.readThen
  split
  next => exact hk _ _
  next => exact .stuck _ rfl

theorem NoFatalFault.inputThen {s : State} {k : Byte → State → Result} (hk : ∀ b t, NoFatalFault (k b t)) :
    NoFatalFault (s.inputThen k) := by
  unfold State.inputThen
  split
  next => exact hk _ _
  next => exact .stuck _ rfl

theorem NoFatalFault.stringLoop {bytes : Word → List Byte} {n : Nat} {a : Word} {s : State} :
    NoFatalFault (stringLoop bytes n a s) := by
  obtain ⟨t, h⟩ | h | h := stringLoop_stops (bytes := bytes) (n := n) (a := a) (s := s) <;> rw [h]
  · exact .next t
  · exact .stuck _ rfl
  · exact .stuck _ rfl

theorem noFatalFault_routine (tag : TrapTag) (spare : BitVec 4) (s : State) :
    NoFatalFault (exec (routine spare tag) s) := by
  cases tag with
  | getc | inp => exact .inputThen fun _ _ => .next _
  | out | halt => exact .next _
  | puts | putsp => exact .stringLoop

/-- The illegal instructions (R76): RTI, the reserved opcode, and TRAP with a vector that names no routine. -/
def isIllegal : Instr → Bool
  | .rti _ | .reserved _ => true
  | .trap v _ => (decodeTrap v).isNone
  | _ => false

/-- R76, R204: of the instructions, only the illegal ones raise a fatal fault. -/
theorem noFatalFault_exec {i : Instr} (hi : isIllegal i = false) (s : State) : NoFatalFault (exec i s) := by
  cases i with
  | rti | reserved => cases hi
  | trap v spare =>
    obtain ⟨tag, hv⟩ := Option.isSome_iff_exists.mp (by simpa [isIllegal] using hi : (decodeTrap v).isSome = true)
    obtain rfl := eq_routineVector_of_decodeTrap hv
    rw [exec_trap_routineVector]
    exact noFatalFault_routine tag spare s
  | br | addReg | addImm | st | jsr | jsrr | andReg | andImm | str | notReg | jmp | lea | ret => exact .next _
  | ld | ldr | sti => exact .readThen fun _ _ => .next _
  | ldi => exact .readThen fun _ _ => .readThen fun _ _ => .next _
  | getc spare => exact noFatalFault_routine .getc spare s
  | out spare => exact noFatalFault_routine .out spare s
  | puts spare => exact noFatalFault_routine .puts spare s
  | inp spare => exact noFatalFault_routine .inp spare s
  | putsp spare => exact noFatalFault_routine .putsp spare s
  | halt spare => exact noFatalFault_routine .halt spare s

/-- R78: the vectors that name no routine lie below 0x20 or above 0x25. -/
theorem lt_or_lt_of_decodeTrap_eq_none {v : Byte} (h : decodeTrap v = none) : v.toNat < 32 ∨ 37 < v.toNat := by
  have hv := decodeTrap_eq_none_iff.mp h
  simp only [trapVectors, ← BitVec.toNat_inj, BitVec.toNat_ofNat, List.mem_cons, List.not_mem_nil] at hv
  omega

theorem eq_of_isIllegal {i : Instr} (hi : isIllegal i = true) :
    (∃ x, i = .rti x) ∨ (∃ x, i = .reserved x) ∨ ∃ v x, i = .trap v x ∧ decodeTrap v = none := by
  cases i with
  | rti spare => exact .inl ⟨spare, rfl⟩
  | reserved spare => exact .inr (.inl ⟨spare, rfl⟩)
  | trap v spare => exact .inr (.inr ⟨v, spare, rfl, by simpa [isIllegal] using hi⟩)
  | _ => cases hi

theorem exec_of_isIllegal {i : Instr} (hi : isIllegal i = true) (s : State) : ∃ f, exec i s = .fault f := by
  obtain ⟨x, rfl⟩ | ⟨x, rfl⟩ | ⟨v, x, rfl, hv⟩ := eq_of_isIllegal hi
  · exact ⟨_, rfl⟩
  · exact ⟨_, rfl⟩
  · exact ⟨_, exec_trap_of_decodeTrap_none hv x s⟩

/-- Settles O37: an illegal instruction stops with a fault, and no other refuses or raises a fault with a code. -/
theorem onlyIllegalInstructionsFaultAndNoneIsRefused : Obligations.OnlyIllegalInstructionsFaultAndNoneIsRefused := by
  unfold Obligations.OnlyIllegalInstructionsFaultAndNoneIsRefused
  refine ⟨fun s i r h => ?_, fun s i f c h hc => ?_⟩
  · cases hi : isIllegal i with
    | true =>
      obtain ⟨f, hf⟩ := exec_of_isIllegal hi s
      rw [h] at hf
      cases hf
    | false =>
      have hlegal := noFatalFault_exec hi s
      rw [h] at hlegal
      cases hlegal
  · cases hi : isIllegal i with
    | true =>
      obtain hrti | hreserved | ⟨v, x, htrap, hv⟩ := eq_of_isIllegal hi
      · exact .inl hrti
      · exact .inr (.inl hreserved)
      · exact .inr (.inr ⟨v, x, htrap, lt_or_lt_of_decodeTrap_eq_none hv⟩)
    | false =>
      have hlegal := noFatalFault_exec hi s
      rw [h] at hlegal
      cases hlegal with
      | stuck _ hnone => rw [hc] at hnone; cases hnone

end Sys2Proof.Proofs
end

section
/-! PROOFS. The string routines (44_trap_routines.md R182, R184): the bound of the loop is no shorter than any string
that ends. -/

namespace Sys2Proof.Proofs
open Sys2Proof Sys2Proof.Machine

/-! ### Reads and the device -/

@[simp] theorem keyboardWrite_dev (s : State) (b : Byte) : (s.keyboardWrite b).dev = s.dev := by
  rw [keyboardWrite_eq]

theorem zext16_ne_zero {b : Byte} (hb : b ≠ 0x00#8) : zext16 b ≠ 0x0000#16 := by
  intro h
  apply hb
  apply BitVec.eq_of_toNat_eq
  rw [← zext16_toNat, h]
  rfl

/-- A poll that received a byte leaves no zero word where there was none, and none in the data cell. -/
theorem keyboardWrite_cell_ne_zero {s : State} {b : Byte} {c : Word} (hb : b ≠ 0x00#8) (hc : c ≠ kbsrAddr)
    (hs : c ≠ kbdrAddr → s.cell c ≠ 0x0000#16) : (s.keyboardWrite b).cell c ≠ 0x0000#16 := by
  by_cases hdata : c = kbdrAddr
  · rw [State.keyboardWrite_cell, if_neg hc, if_pos ⟨hdata, hb⟩]
    exact zext16_ne_zero hb
  · rw [keyboardWrite_cell_of_ne s hc (.inr hdata)]
    exact hs hdata

/-- R42, R45: a read is a plain one, or a poll. -/
theorem reads_cases {s s1 : State} {a v : Word} (h : Reads s a v s1) :
    (a ≠ kbsrAddr ∧ v = s.cell a ∧ s1 = s) ∨
      (a = kbsrAddr ∧ ∃ b d, Device.next s.dev = some (b, d) ∧ (v = 0x0000#16 ↔ b = 0x00#8) ∧
        s1 = ({ s with dev := d } : State).keyboardWrite b) := by
  cases h with
  | plain _ ha => exact .inl ⟨ha, rfl, rfl⟩
  | ready b d hd hb => exact .inr ⟨rfl, b, d, hd, by simp [hb], by rw [State.keyboardWrite_ready _ hb]; rfl⟩
  | idle d hd => exact .inr ⟨rfl, 0x00#8, d, hd, by simp, by rw [State.keyboardWrite_idle]; rfl⟩

/-- The device answers every call with a byte other than 0x00. -/
def Endless (d : Device) : Prop := d.script = [] ∧ d.burst = .forever

theorem Endless.next {d e : Device} {b : Byte} (hd : Endless d) (h : Device.next d = some (b, e)) :
    b ≠ 0x00#8 ∧ Endless e := by
  obtain ⟨script, burst, source, calls⟩ := d
  obtain ⟨rfl, rfl⟩ : script = [] ∧ burst = .forever := hd
  cases h
  exact ⟨byteAbove_ne_zero _, rfl, rfl⟩

/-- Any other device comes nearer to its pause, or to the end of its script, with each byte. -/
theorem bytesToPause_lt_of_not_endless {d e : Device} {b : Byte} (h : Device.next d = some (b, e)) (hb : b ≠ 0x00#8)
    (hd : ¬Endless d) : bytesToPause e < bytesToPause d := by
  by_cases hforever : d.burst = .forever
  · obtain ⟨script, burst, source, calls⟩ := d
    cases script with
    | nil => exact absurd ⟨rfl, hforever⟩ hd
    | cons c rest =>
      cases h
      simp only [bytesToPause, List.length_cons]
      omega
  · exact bytesToPause_lt_of_next h hb hforever

/-! ### The three ways a string is bounded -/

/-- With no zero word but in the status cell, and a device that never answers 0x00, no string ends. -/
theorem not_stringRun_of_endless {bytes : Word → List Byte} {a : Word} {s t : State} (hd : Endless s.dev)
    (hcells : ∀ c, c ≠ kbsrAddr → s.cell c ≠ 0x0000#16) : ¬StringRun bytes a s t := by
  intro h
  induction h with
  | stop hread =>
    obtain ⟨ha, hv, -⟩ | ⟨-, b, d, hnext, hv, -⟩ := reads_cases hread
    · exact hcells _ ha hv.symm
    · exact (hd.next hnext).1 (hv.mp rfl)
  | go hread hw _ ih =>
    obtain ⟨-, -, rfl⟩ | ⟨-, b, d, hnext, -, rfl⟩ := reads_cases hread
    · exact ih hd hcells
    · obtain ⟨hb, hd'⟩ := hd.next hnext
      refine ih (by simpa using hd') fun c hc => ?_
      rw [State.emit_cell]
      exact keyboardWrite_cell_ne_zero hb hc fun _ => hcells c hc

/-- A zero word that no poll overwrites ends the string within a lap of memory. -/
theorem stringLoop_of_zero_cell {bytes : Word → List Byte} {a z : Word} {s t : State} (h : StringRun bytes a s t)
    (hstatus : z ≠ kbsrAddr) (hdata : z ≠ kbdrAddr) (hz : s.cell z = 0x0000#16) {n : Nat} (hn : (z - a).toNat < n) :
    stringLoop bytes n a s = .next t := by
  induction h generalizing n with
  | stop hread =>
    obtain ⟨n, rfl⟩ : ∃ m, n = m + 1 := ⟨n - 1, by omega⟩
    exact stringLoop_stop (memRead_of_reads hread)
  | @go a w s s1 t hread hw rest ih =>
    obtain ⟨n, rfl⟩ : ∃ m, n = m + 1 := ⟨n - 1, by omega⟩
    have hm := memRead_of_reads hread
    have hne : a ≠ z := by
      rintro rfl
      rw [State.memRead_plain s hstatus, hz] at hm
      exact hw (Prod.mk.inj (Option.some.inj hm)).1.symm
    obtain ⟨-, -, -, -, -, -, hcell, -⟩ := State.memRead_frame hm
    rw [stringLoop_go hm hw]
    refine ih ((hcell z hstatus hdata).trans hz) ?_
    bv_omega

/-- Where no zero word stands, only a poll ends the string: within a lap for each byte before the device's pause. -/
theorem stringLoop_of_cells_ne_zero {bytes : Word → List Byte} {a : Word} {s t : State} (h : StringRun bytes a s t)
    (hcells : ∀ c, c ≠ kbsrAddr → c ≠ kbdrAddr → s.cell c ≠ 0x0000#16) {n : Nat}
    (hn : 65536 * bytesToPause s.dev + (kbsrAddr - a).toNat < n) : stringLoop bytes n a s = .next t := by
  induction h generalizing n with
  | stop hread =>
    obtain ⟨n, rfl⟩ : ∃ m, n = m + 1 := ⟨n - 1, by omega⟩
    exact stringLoop_stop (memRead_of_reads hread)
  | @go a w s s1 t hread hw rest ih =>
    obtain ⟨n, rfl⟩ : ∃ m, n = m + 1 := ⟨n - 1, by omega⟩
    rw [stringLoop_go (memRead_of_reads hread) hw]
    obtain ⟨ha, -, rfl⟩ | ⟨rfl, b, d, hnext, hb, rfl⟩ := reads_cases hread
    · refine ih hcells ?_
      rw [State.emit_dev]
      rw [kbsrAddr_eq] at ha hn ⊢
      bv_omega
    · have hb : b ≠ 0x00#8 := fun h => hw (hb.mpr h)
      have hpolled (c : Word) (hc : c ≠ kbsrAddr) :
          ((({ s with dev := d } : State).keyboardWrite b).emit (bytes w)).cell c ≠ 0x0000#16 :=
        keyboardWrite_cell_ne_zero hb hc (hcells c hc)
      have hfewer : bytesToPause d < bytesToPause s.dev :=
        bytesToPause_lt_of_not_endless hnext hb fun hend =>
          not_stringRun_of_endless (by simpa using (hend.next hnext).2) hpolled rest
      refine ih (fun c hc _ => hpolled c hc) ?_
      have hlap := (kbsrAddr - (kbsrAddr + 1#16)).isLt
      simp only [State.emit_dev, keyboardWrite_dev]
      omega

/-- R182, R184: the bound of the string routines is large enough for every string that ends. -/
theorem stringLoop_bound_of_stringRun {bytes : Word → List Byte} {a : Word} {s t : State}
    (h : StringRun bytes a s t) : stringLoop bytes (stringBound s) a s = .next t := by
  by_cases hzero : ∃ z, z ≠ kbsrAddr ∧ z ≠ kbdrAddr ∧ s.cell z = 0x0000#16
  · obtain ⟨z, hstatus, hdata, hz⟩ := hzero
    have hlap := (z - a).isLt
    refine stringLoop_of_zero_cell h hstatus hdata hz ?_
    rw [stringBound]
    omega
  · have hlap := (kbsrAddr - a).isLt
    refine stringLoop_of_cells_ne_zero h (fun c hstatus hdata hc => hzero ⟨c, hstatus, hdata, hc⟩) ?_
    rw [stringBound, bytesToPause]
    omega

theorem exec_puts_of_stringRun {s t : State} {i : Instr} {x : BitVec 4} (hi : i = .puts x ∨ i = .trap 0x22#8 x)
    (h : StringRun lowByte (s.reg 0) (s.trapEntry trapSavesR7) t) : exec i s = .next t := by
  have hexec : exec i s = trapPuts (s.trapEntry trapSavesR7) := by rcases hi with rfl | rfl <;> rfl
  rw [hexec, trapPuts, putsBytes_eq_lowByte, reg_zero_trapEntry]
  exact stringLoop_bound_of_stringRun h

theorem exec_putsp_of_stringRun {s t : State} {i : Instr} {x : BitVec 4} (hi : i = .putsp x ∨ i = .trap 0x24#8 x)
    (h : StringRun bothBytes (s.reg 0) (s.trapEntry trapSavesR7) t) : exec i s = .next t := by
  have hexec : exec i s = trapPutsp (s.trapEntry trapSavesR7) := by rcases hi with rfl | rfl <;> rfl
  rw [hexec, trapPutsp, putspBytes_eq_bothBytes, reg_zero_trapEntry]
  exact stringLoop_bound_of_stringRun h

end Sys2Proof.Proofs
end

section
/-! PROOFS. Legal instructions go on (30_encoding.md R76, 60_exceptions.md R204) when the device answers and strings
end. -/

namespace Sys2Proof.Proofs
open Sys2Proof Sys2Proof.Machine

/-! ### Which words are legal -/

theorem opcode_encode_rti (spare : BitVec 12) : (encode (.rti spare)).extractLsb' 12 4 = 0b1000#4 :=
  (extractLsb'_word _ _ 12 4).trans BitVec.extractLsb'_append_eq_left

theorem opcode_encode_reserved (spare : BitVec 12) : (encode (.reserved spare)).extractLsb' 12 4 = 0b1101#4 :=
  (extractLsb'_word _ _ 12 4).trans BitVec.extractLsb'_append_eq_left

theorem opcode_encode_trap (v : Byte) (spare : BitVec 4) : (encode (.trap v spare)).extractLsb' 12 4 = 0b1111#4 := by
  rw [encode, extractLsb'_word, BitVec.extractLsb'_append_eq_of_le (by decide)]
  exact BitVec.extractLsb'_append_eq_left

theorem vector_encode_trap (v : Byte) (spare : BitVec 4) : (encode (.trap v spare)).extractLsb' 0 8 = v :=
  (extractLsb'_word _ _ 0 8).trans BitVec.extractLsb'_append_eq_right

/-- The opcode and the vector of a word that is read as TRAP or as another name of it. -/
theorem trap_fields_of_decode {ir : Word} {i : Instr} {v : Byte} {spare : BitVec 4} (h : decode ir = i)
    (hi : encode i = encode (.trap v spare)) : ir.extractLsb' 12 4 = 0b1111#4 ∧ ir.extractLsb' 0 8 = v := by
  rw [← encode_decode ir, h, hi]
  exact ⟨opcode_encode_trap v spare, vector_encode_trap v spare⟩

/-- R76: the opcode and the vector of a word say whether its instruction is illegal. -/
theorem isIllegal_decode_eq_false {ir : Word} (hrti : ir.extractLsb' 12 4 ≠ 0b1000#4)
    (hreserved : ir.extractLsb' 12 4 ≠ 0b1101#4)
    (htrap : ir.extractLsb' 12 4 = 0b1111#4 → ir.extractLsb' 0 8 ∈ trapVectors) : isIllegal (decode ir) = false := by
  rw [← Bool.not_eq_true]
  intro hi
  obtain ⟨x, h⟩ | ⟨x, h⟩ | ⟨v, x, h, hv⟩ := eq_of_isIllegal hi
  · exact hrti (by rw [← encode_decode ir, h, opcode_encode_rti])
  · exact hreserved (by rw [← encode_decode ir, h, opcode_encode_reserved])
  · obtain ⟨hop, rfl⟩ := trap_fields_of_decode h rfl
    exact decodeTrap_eq_none_iff.mp hv (htrap hop)

/-! ### Reads that the device answers -/

theorem answers_of_succ {n : Nat} {d : Device} (h : Device.Answers (n + 1) d) : Device.Answers n d := by
  induction n generalizing d with
  | zero => trivial
  | succ n ih =>
    obtain ⟨b, e, hnext, he⟩ := h
    exact ⟨b, e, hnext, ih he⟩

/-- A read takes at most one answer. -/
theorem exists_memRead_of_answers {n : Nat} {s : State} (h : Device.Answers (n + 1) s.dev) (a : Word) :
    ∃ v t, s.memRead a = some (v, t) ∧ Device.Answers n t.dev := by
  by_cases ha : a = kbsrAddr
  · obtain ⟨b, d, hnext, hd⟩ := h
    subst ha
    exact ⟨_, _, memRead_kbsr_of_next hnext, by rwa [keyboardWrite_dev]⟩
  · exact ⟨_, _, State.memRead_plain s ha, answers_of_succ h⟩

theorem exists_next_readThen {n : Nat} {s : State} {k : Word → State → Result} (h : Device.Answers (n + 1) s.dev)
    (hk : ∀ v t, Device.Answers n t.dev → ∃ u, k v t = .next u) (a : Word) : ∃ u, s.readThen a k = .next u := by
  obtain ⟨v, t, hread, ht⟩ := exists_memRead_of_answers h a
  rw [State.readThen_of_memRead k hread]
  exact hk v t ht

theorem exists_next_inputThen {n : Nat} {s : State} {k : Byte → State → Result} (h : Device.Answers (n + 1) s.dev)
    (hk : ∀ b t, ∃ u, k b t = .next u) : ∃ u, s.inputThen k = .next u := by
  obtain ⟨b, d, hnext, -⟩ := h
  rw [State.inputThen, State.devRead, hnext]
  exact hk b _

/-- A legal word goes on when the device answers two calls: LDI reads twice, and no other instruction calls more often
but PUTS and PUTSP, whose strings are to end. -/
theorem exists_next_exec_decode {ir : Word} {s : State} (hlegal : isIllegal (decode ir) = false)
    (hs : Device.Answers 2 s.dev)
    (hputs : ∀ x, decode ir = .puts x → ∃ t, StringRun lowByte (s.reg 0) (s.trapEntry trapSavesR7) t)
    (hputsp : ∀ x, decode ir = .putsp x → ∃ t, StringRun bothBytes (s.reg 0) (s.trapEntry trapSavesR7) t) :
    ∃ t, exec (decode ir) s = .next t := by
  cases h : decode ir with
  | br | addReg | addImm | st | jsr | jsrr | andReg | andImm | str | notReg | jmp | lea | ret | out | halt =>
    exact ⟨_, rfl⟩
  | rti | reserved => rw [h] at hlegal; cases hlegal
  | trap v spare => simp [h, isIllegal, decodeTrap_of_decode h] at hlegal
  | ld | ldr | sti => exact exists_next_readThen hs (fun _ _ _ => ⟨_, rfl⟩) _
  | ldi => exact exists_next_readThen hs (fun _ _ ht => exists_next_readThen ht (fun _ _ _ => ⟨_, rfl⟩) _) _
  | getc | inp => exact exists_next_inputThen hs fun _ _ => ⟨_, rfl⟩
  | puts x =>
    obtain ⟨t, hrun⟩ := hputs x h
    exact ⟨t, exec_puts_of_stringRun (.inl rfl) hrun⟩
  | putsp x =>
    obtain ⟨t, hrun⟩ := hputsp x h
    exact ⟨t, exec_putsp_of_stringRun (.inl rfl) hrun⟩

/-- Settles O52: the fetch takes one answer at most, and leaves two for the legal instruction it runs. -/
theorem legalInstructionsGoOn : Obligations.LegalInstructionsGoOn := by
  unfold Obligations.LegalInstructionsGoOn
  intro s s1 ir hrun htop hs hread hrti hreserved hvector hputs hputsp
  have hfetch := memRead_of_reads hread
  obtain ⟨v, t, ht, hanswers⟩ := exists_memRead_of_answers hs s.pc
  obtain ⟨rfl, rfl⟩ := Prod.mk.inj (Option.some.inj (hfetch.symm.trans ht))
  rw [StepSafe, step_of_memRead hrun htop hfetch]
  have hlegal := isIllegal_decode_eq_false hrti hreserved hvector
  refine exists_next_exec_decode hlegal hanswers (fun x h => ?_) fun x h => ?_
  · obtain ⟨hop, hv⟩ := trap_fields_of_decode h (encode_routine .puts x)
    exact hputs hop hv
  · obtain ⟨hop, hv⟩ := trap_fields_of_decode h (encode_routine .putsp x)
    exact hputsp hop hv

end Sys2Proof.Proofs
end

section
/-! PROOFS. Control transfer (40_control.md R100 to R103): where BR, JMP, RET, JSR and JSRR go, and that they leave all
else but the link. -/

namespace Sys2Proof.Proofs
open Sys2Proof Sys2Proof.Machine

/-! ### The arm of `decode` that an opcode gives (30_encoding.md R71, R72) -/

/-- The four bits that `decode` looks at are those of the opcode. -/
theorem bits_of_opcode {w : Word} {op : BitVec 4} (h : w.extractLsb' 12 4 = op) :
    w.getLsbD 15 = op.getLsbD 3 ∧ w.getLsbD 14 = op.getLsbD 2 ∧ w.getLsbD 13 = op.getLsbD 1 ∧
      w.getLsbD 12 = op.getLsbD 0 := by
  subst h
  simp

theorem decode_of_opcode_br {w : Word} (hop : w.extractLsb' 12 4 = 0b0000#4) :
    decode w = .br (w.extractLsb' 9 3) (w.extractLsb' 0 9) := by
  obtain ⟨h15, h14, h13, h12⟩ := bits_of_opcode hop
  rw [decode, h15, h14, h13, h12]
  rfl

/-- R102, R103: JSR and JSRR share an opcode, and bit 11 tells them apart. -/
theorem decode_of_opcode_jsr {w : Word} (hop : w.extractLsb' 12 4 = 0b0100#4) :
    decode w = if w.getLsbD 11 then .jsr (w.extractLsb' 0 11)
      else .jsrr (regField w 6) (w.extractLsb' 9 2) (w.extractLsb' 0 6) := by
  obtain ⟨h15, h14, h13, h12⟩ := bits_of_opcode hop
  rw [decode, h15, h14, h13, h12]
  rfl

/-- R90, R101: JMP and RET share an opcode, and the base register tells them apart. -/
theorem decode_of_opcode_jmp {w : Word} (hop : w.extractLsb' 12 4 = 0b1100#4) :
    decode w = if regField w 6 = 7 then .ret (w.extractLsb' 9 3) (w.extractLsb' 0 6)
      else .jmp (regField w 6) (w.extractLsb' 9 3) (w.extractLsb' 0 6) := by
  obtain ⟨h15, h14, h13, h12⟩ := bits_of_opcode hop
  rw [decode, h15, h14, h13, h12]
  rfl

/-! ### What a control transfer leaves -/

/-- Nothing but `pc` and the registers named may differ. -/
def TransferFrame (rs : List Reg) (s t : State) : Prop :=
  SameRegsBut rs s t ∧ t.cond = s.cond ∧ t.run = s.run ∧ SameMemBut [] s t ∧ SamePort s t

theorem transferFrame_setPc (s : State) (target : Word) : TransferFrame [] s (s.setPc target) :=
  ⟨fun _ _ => rfl, rfl, rfl, fun _ _ => rfl, rfl, rfl⟩

theorem transferFrame_link (s : State) (ret target : Word) :
    TransferFrame [7] s ((s.setReg 7 ret).setPc target) :=
  ⟨fun _ hr => State.setReg_reg_other s ret (List.ne_of_not_mem_cons hr), rfl, rfl, fun _ _ => rfl, rfl, rfl⟩

/-- R26: the mask meets the flags when one of N, Z, P is in both. -/
theorem mask_and_flags_eq_zero_iff {nzp cond : BitVec 3} :
    nzp &&& cond = 0b000#3 ↔ ∀ k, k < 3 → nzp.getLsbD k = true → cond.getLsbD k = false := by
  simp [BitVec.eq_of_getLsbD_eq_iff]

/-! ### The statements -/

/-- Settles O20: where BR goes is `exec_br_pc`, and the mask and the flags are compared bit by bit. -/
theorem brTakenExactlyWhenMaskMeetsFlags : Obligations.BrTakenExactlyWhenMaskMeetsFlags := by
  unfold Obligations.BrTakenExactlyWhenMaskMeetsFlags
  refine ⟨fun w hop => decode_of_opcode_br hop, fun s nzp off => ?_⟩
  obtain ⟨t, hexec, hpc⟩ := exec_br_pc s nzp off
  have hframe : TransferFrame [] s t := by
    obtain rfl := Host.Outcome.next.inj hexec
    exact transferFrame_setPc s _
  refine ⟨t, hexec, fun ⟨k, hk, hmask, hflag⟩ => ?_, fun hnone => ?_, hframe⟩
  · have hmeet : nzp &&& s.cond ≠ 0b000#3 := fun hzero =>
      absurd hflag (by simp [mask_and_flags_eq_zero_iff.mp hzero k hk hmask])
    exact hpc.trans (if_neg hmeet)
  · exact hpc.trans (if_pos (mask_and_flags_eq_zero_iff.mpr hnone))

/-- Settles O21: JMP and RET are one jump through the base register, RET's being R7. -/
theorem jmpAndRetGoToBase : Obligations.JmpAndRetGoToBase := by
  unfold Obligations.JmpAndRetGoToBase
  refine ⟨fun w hop => ?_, fun s i base hi lo h => ⟨s.setPc (s.reg base), ?_, rfl, transferFrame_setPc s _⟩⟩
  · rw [decode_of_opcode_jmp hop]
    exact ⟨fun hbase => if_neg hbase, fun hbase => if_pos hbase⟩
  · obtain rfl | ⟨rfl, rfl⟩ := h <;> rfl

/-- Settles O22: the link, then a sum that wraps. -/
theorem jsrLinksAndJumps : Obligations.JsrLinksAndJumps := by
  unfold Obligations.JsrLinksAndJumps
  refine ⟨fun w hop hbit => by rw [decode_of_opcode_jsr hop, if_pos hbit], fun s off => ?_⟩
  exact ⟨_, rfl, State.setReg_reg_same s 7 s.pc, BitVec.toNat_add _ _, transferFrame_link s _ _⟩

/-- Settles O23: the base register is read from the state with the link in R7. -/
theorem jsrrLinksBeforeReadingBase : Obligations.JsrrLinksBeforeReadingBase := by
  unfold Obligations.JsrrLinksBeforeReadingBase
  refine ⟨fun w hop hbit => by rw [decode_of_opcode_jsr hop, hbit]; rfl, fun s base hi lo => ?_⟩
  refine ⟨_, rfl, State.setReg_reg_same s 7 s.pc, ?_, ?_, transferFrame_link s _ _⟩
  · rintro rfl
    exact State.setReg_reg_same s 7 s.pc
  · exact fun hbase => State.setReg_reg_other s s.pc hbase

end Sys2Proof.Proofs
end

section
/-! PROOFS. The operate instructions (41_operate.md R120 to R124): the word each writes to DR, and that the flags of that
word are all else they write. -/

namespace Sys2Proof.Proofs
open Sys2Proof Sys2Proof.Machine

/-! ### Their arms of `decode` (30_encoding.md R71) -/

/-- R120, R121: the two forms of ADD share an opcode, and bit 5 tells them apart. -/
theorem decode_of_opcode_add {w : Word} (hop : w.extractLsb' 12 4 = 0b0001#4) :
    decode w = if w.getLsbD 5 then .addImm (regField w 9) (regField w 6) (w.extractLsb' 0 5)
      else .addReg (regField w 9) (regField w 6) (regField w 0) (w.extractLsb' 3 2) := by
  obtain ⟨h15, h14, h13, h12⟩ := bits_of_opcode hop
  rw [decode, h15, h14, h13, h12]
  rfl

/-- R122, R123: the two forms of AND share an opcode, and bit 5 tells them apart. -/
theorem decode_of_opcode_and {w : Word} (hop : w.extractLsb' 12 4 = 0b0101#4) :
    decode w = if w.getLsbD 5 then .andImm (regField w 9) (regField w 6) (w.extractLsb' 0 5)
      else .andReg (regField w 9) (regField w 6) (regField w 0) (w.extractLsb' 3 2) := by
  obtain ⟨h15, h14, h13, h12⟩ := bits_of_opcode hop
  rw [decode, h15, h14, h13, h12]
  rfl

theorem decode_of_opcode_not {w : Word} (hop : w.extractLsb' 12 4 = 0b1001#4) :
    decode w = .notReg (regField w 9) (regField w 6) (w.extractLsb' 0 6) := by
  obtain ⟨h15, h14, h13, h12⟩ := bits_of_opcode hop
  rw [decode, h15, h14, h13, h12]
  rfl

/-! ### A register written with its flags -/

@[simp] theorem setRegCc_reg_same (s : State) (r : Reg) (v : Word) : (s.setRegCc r v).reg r = v :=
  State.setReg_reg_same s r v

theorem sameRegsBut_setRegCc (s : State) (r : Reg) (v : Word) : SameRegsBut [r] s (s.setRegCc r v) :=
  fun _ hq => State.setReg_reg_other s v (List.ne_of_not_mem_cons hq)

/-- R26, R27. -/
theorem flagsOf_setRegCc (s : State) (r : Reg) (v : Word) :
    FlagsOf ((s.setRegCc r v).reg r) (s.setRegCc r v).cond := by
  rw [setRegCc_reg_same]
  exact flagsOf_condOf v

/-- The flags are those of DR, and nothing but DR and the flags may differ. -/
def OperateFrame (dr : Reg) (s t : State) : Prop :=
  FlagsOf (t.reg dr) t.cond ∧ SameRegsBut [dr] s t ∧ t.pc = s.pc ∧ t.run = s.run ∧ SameMemBut [] s t ∧ SamePort s t

theorem operateFrame_setRegCc (s : State) (dr : Reg) (v : Word) : OperateFrame dr s (s.setRegCc dr v) :=
  ⟨flagsOf_setRegCc s dr v, sameRegsBut_setRegCc s dr v, rfl, rfl, fun _ _ => rfl, rfl, rfl⟩

/-! ### The statements -/

/-- Settles O7: the word written is a sum of 16-bit words, which wraps. -/
theorem addRegisterForm : Obligations.AddRegisterForm := by
  unfold Obligations.AddRegisterForm
  refine ⟨fun w hop hbit => by rw [decode_of_opcode_add hop, hbit]; rfl, fun s dr sr1 sr2 spare => ?_⟩
  refine ⟨_, rfl, ?_, operateFrame_setRegCc s dr (s.reg sr1 + s.reg sr2)⟩
  rw [setRegCc_reg_same]
  exact BitVec.toNat_add _ _

/-- Settles O8: as O7, with the extended immediate for the second word. -/
theorem addImmediateForm : Obligations.AddImmediateForm := by
  unfold Obligations.AddImmediateForm
  refine ⟨fun w hop hbit => by rw [decode_of_opcode_add hop, if_pos hbit], fun s dr sr1 imm5 => ?_⟩
  refine ⟨_, rfl, ?_, operateFrame_setRegCc s dr (s.reg sr1 + sext imm5)⟩
  rw [setRegCc_reg_same]
  exact BitVec.toNat_add _ _

/-- Settles O9: the word written is read bit by bit. -/
theorem andRegisterForm : Obligations.AndRegisterForm := by
  unfold Obligations.AndRegisterForm
  refine ⟨fun w hop hbit => by rw [decode_of_opcode_and hop, hbit]; rfl, fun s dr sr1 sr2 spare => ?_⟩
  refine ⟨_, rfl, fun k _ => ?_, operateFrame_setRegCc s dr (s.reg sr1 &&& s.reg sr2)⟩
  rw [setRegCc_reg_same]
  exact BitVec.getLsbD_and

/-- Settles O10: as O9, with the extended immediate for the second word. -/
theorem andImmediateForm : Obligations.AndImmediateForm := by
  unfold Obligations.AndImmediateForm
  refine ⟨fun w hop hbit => by rw [decode_of_opcode_and hop, if_pos hbit], fun s dr sr1 imm5 => ?_⟩
  refine ⟨_, rfl, fun k _ => ?_, operateFrame_setRegCc s dr (s.reg sr1 &&& sext imm5)⟩
  rw [setRegCc_reg_same]
  exact BitVec.getLsbD_and

/-- Settles O11: a bit below 16 of the complement is the complement of the bit. -/
theorem notComplementsRegister : Obligations.NotComplementsRegister := by
  unfold Obligations.NotComplementsRegister
  refine ⟨fun w hop => decode_of_opcode_not hop, fun s dr sr1 spare => ?_⟩
  refine ⟨_, rfl, fun k hk => ?_, operateFrame_setRegCc s dr (~~~ s.reg sr1)⟩
  rw [setRegCc_reg_same, BitVec.getLsbD_not, decide_eq_true hk, Bool.true_and]

/-- Settles O57: nine closed words, each decoded by evaluation. -/
theorem wordsOfTheSpecDecode : Obligations.WordsOfTheSpecDecode := by
  unfold Obligations.WordsOfTheSpecDecode
  decide

end Sys2Proof.Proofs
end

section
/-! PROOFS. Loads, stores and address computation (42_memory_access.md R140 to R147): what an answered read leaves, and
that a load writes one register with its flags after it, and a store one cell. -/

namespace Sys2Proof.Proofs
open Sys2Proof Sys2Proof.Machine

/-! ### Their arms of `decode` (30_encoding.md R71) -/

/-- The instruction that a word with one of the seven memory access opcodes is (R71); `none` for any other opcode. -/
def memoryAccessOf (op : BitVec 4) (w : Word) : Option Instr :=
  match op with
  | 0b0010#4 => some (.ld (regField w 9) (w.extractLsb' 0 9))
  | 0b0011#4 => some (.st (w.extractLsb' 9 3) (w.extractLsb' 0 9))
  | 0b0110#4 => some (.ldr (regField w 9) (regField w 6) (w.extractLsb' 0 6))
  | 0b0111#4 => some (.str (regField w 9) (regField w 6) (w.extractLsb' 0 6))
  | 0b1010#4 => some (.ldi (regField w 9) (w.extractLsb' 0 9))
  | 0b1011#4 => some (.sti (regField w 9) (w.extractLsb' 0 9))
  | 0b1110#4 => some (.lea (regField w 9) (w.extractLsb' 0 9))
  | _ => none

theorem decode_of_memoryAccessOf {w : Word} {op : BitVec 4} {i : Instr} (hop : w.extractLsb' 12 4 = op)
    (hi : memoryAccessOf op w = some i) : decode w = i := by
  obtain ⟨h15, h14, h13, h12⟩ := bits_of_opcode hop
  rw [decode, h15, h14, h13, h12]
  unfold memoryAccessOf at hi
  split at hi
  case h_8 => cases hi
  all_goals exact Option.some.inj hi

/-! ### What the reads of an instruction leave -/

theorem sameMemBut_trans {as bs : List Word} {s t u : State} (h : SameMemBut bs s t) (k : SameMemBut as t u) :
    SameMemBut (as ++ bs) s u := by
  intro a ha
  obtain ⟨has, hbs⟩ : a ∉ as ∧ a ∉ bs := by simpa using ha
  exact (k a has).trans (h a hbs)

/-- What answered reads at the addresses `addrs` leave: all but memory and the device, and of memory every cell that
no poll writes (R45, R47). -/
structure ReadFrame (addrs : List Word) (s t : State) : Prop where
  core : SameCore s t
  out : t.out = s.out
  mem : ReadMemFrame addrs s t

theorem ReadFrame.of_reads {s s1 : State} {a v : Word} (h : Reads s a v s1) : ReadFrame [a] s s1 := by
  have hread := memRead_of_reads h
  obtain ⟨-, -, -, -, hout, -, -, hplain⟩ := State.memRead_frame hread
  refine ⟨.of_memRead hread, hout, (PollFrame.of_memRead hread).cells, fun hstatus => ?_⟩
  have hne : a ≠ kbsrAddr := (List.ne_of_not_mem_cons hstatus).symm
  rw [hplain hne]
  exact fun _ _ => rfl

theorem ReadFrame.trans {as bs : List Word} {s t u : State} (h : ReadFrame as s t) (k : ReadFrame bs t u) :
    ReadFrame (as ++ bs) s u := by
  obtain ⟨hpolls, hplain⟩ := h.mem
  obtain ⟨kpolls, kplain⟩ := k.mem
  refine ⟨h.core.trans k.core, k.out.trans h.out, fun a ha => (kpolls a ha).trans (hpolls a ha), fun hstatus => ?_⟩
  obtain ⟨has, hbs⟩ : 0xFE00#16 ∉ as ∧ 0xFE00#16 ∉ bs := by simpa using hstatus
  exact sameMemBut_trans (hplain has) (kplain hbs)

theorem readThen_of_reads {s s1 : State} {a v : Word} (k : Word → State → Result) (h : Reads s a v s1) :
    s.readThen a k = k v s1 :=
  State.readThen_of_memRead k (memRead_of_reads h)

/-! ### What a load and a store leave -/

/-- The load of `v` to `dr` went from `s` to `t` through reads at `addrs` that left `s1`. -/
def LoadFrame (addrs : List Word) (dr : Reg) (v : Word) (s s1 t : State) : Prop :=
  t.reg dr = v ∧ FlagsOf v t.cond ∧ SameRegsBut [dr] s t ∧ t.pc = s.pc ∧ t.run = s.run ∧ t.out = s.out ∧
    t.mem = s1.mem ∧ t.dev = s1.dev ∧ ReadMemFrame addrs s t

theorem loadFrame_setRegCc {addrs : List Word} {s s1 : State} (h : ReadFrame addrs s s1) (dr : Reg) (v : Word) :
    LoadFrame addrs dr v s s1 (s1.setRegCc dr v) := by
  have hregs : SameRegsBut [dr] s (s1.setRegCc dr v) := fun r hr =>
    (sameRegsBut_setRegCc s1 dr v r hr).trans (h.core.reg r)
  exact ⟨setRegCc_reg_same s1 dr v, flagsOf_condOf v, hregs, h.core.pc, h.core.run, h.out, rfl, rfl, h.mem⟩

/-- The store of `v` at `a` went from `s` to `t`, and did nothing else. -/
def StoreFrame (a v : Word) (s t : State) : Prop :=
  t.cell a = v ∧ SameMemBut [a] s t ∧ SameRegsBut [] s t ∧ t.cond = s.cond ∧ t.pc = s.pc ∧ t.run = s.run ∧
    SamePort s t

theorem storeFrame_memWrite (s : State) (a v : Word) : StoreFrame a v s (s.memWrite a v) := by
  obtain ⟨hcell, hmem, -⟩ := memWriteHasNoSideEffect s a v
  exact ⟨hcell, hmem, fun _ _ => rfl, rfl, rfl, rfl, rfl, rfl⟩

/-! ### The statements -/

/-- Settles O12: one read, then DR and its flags. -/
theorem ldLoadsPcRelative : Obligations.LdLoadsPcRelative := by
  unfold Obligations.LdLoadsPcRelative
  refine ⟨fun w hop => decode_of_memoryAccessOf hop rfl, fun s s1 dr off v hread => ?_⟩
  exact ⟨s1.setRegCc dr v, readThen_of_reads _ hread, loadFrame_setRegCc (.of_reads hread) dr v⟩

/-- Settles O13: two reads, the second from the state that the first left, then DR and its flags. -/
theorem ldiLoadsThroughPointer : Obligations.LdiLoadsThroughPointer := by
  unfold Obligations.LdiLoadsThroughPointer
  refine ⟨fun w hop => decode_of_memoryAccessOf hop rfl, fun s s1 s2 dr off addr v hptr hread => ?_⟩
  have hreads : ReadFrame [s.pc + sext off, addr] s s2 := .trans (.of_reads hptr) (.of_reads hread)
  have hexec : exec (.ldi dr off) s = .next (s2.setRegCc dr v) :=
    (readThen_of_reads _ hptr).trans (readThen_of_reads _ hread)
  exact ⟨s2.setRegCc dr v, hexec, loadFrame_setRegCc hreads dr v⟩

/-- Settles O14: as O12, at base plus offset. -/
theorem ldrLoadsBasePlusOffset : Obligations.LdrLoadsBasePlusOffset := by
  unfold Obligations.LdrLoadsBasePlusOffset
  refine ⟨fun w hop => decode_of_memoryAccessOf hop rfl, fun s s1 dr base off v hread => ?_⟩
  exact ⟨s1.setRegCc dr v, readThen_of_reads _ hread, loadFrame_setRegCc (.of_reads hread) dr v⟩

/-- Settles O15: the frame is that of the operate instructions, and the word written a sum that wraps. -/
theorem leaComputesAddressAndSetsFlags : Obligations.LeaComputesAddressAndSetsFlags := by
  unfold Obligations.LeaComputesAddressAndSetsFlags
  refine ⟨fun w hop => decode_of_memoryAccessOf hop rfl, fun s dr off => ?_⟩
  refine ⟨_, rfl, ?_, operateFrame_setRegCc s dr (s.pcRel9 off)⟩
  rw [setRegCc_reg_same]
  exact BitVec.toNat_add _ _

/-- Settles O16: one store, of R0. -/
theorem stStoresRegisterZero : Obligations.StStoresRegisterZero := by
  unfold Obligations.StStoresRegisterZero
  refine ⟨fun w hop => decode_of_memoryAccessOf hop rfl, fun s spare off => ?_⟩
  exact ⟨_, rfl, storeFrame_memWrite s (s.pc + sext off) (s.reg 0)⟩

/-- Settles O17: the pointer read, which keeps the registers, then one store at the address it answered. -/
theorem stiStoresThroughPointer : Obligations.StiStoresThroughPointer := by
  unfold Obligations.StiStoresThroughPointer
  refine ⟨fun w hop => decode_of_memoryAccessOf hop rfl, fun s s1 sr off addr hptr => ?_⟩
  obtain ⟨hcore, hout, hpolls, hplain⟩ := ReadFrame.of_reads hptr
  obtain ⟨hcell, hmem, -⟩ := storeFrame_memWrite s1 addr (s1.reg sr)
  have hquiet : s.pc + sext off ≠ 0xFE00#16 → SameMemBut [addr] s (s1.memWrite addr (s1.reg sr)) := fun hstatus =>
    sameMemBut_trans (hplain (by simpa using hstatus.symm)) hmem
  exact ⟨s1.memWrite addr (s1.reg sr), readThen_of_reads _ hptr, hcell.trans (hcore.reg sr), hmem,
    sameMemBut_trans hpolls hmem, hquiet, fun r _ => hcore.reg r, hcore.cond, hcore.pc, hcore.run, hout, rfl⟩

/-- Settles O18: one store, of the field register, at base plus offset. -/
theorem strStoresBasePlusOffset : Obligations.StrStoresBasePlusOffset := by
  unfold Obligations.StrStoresBasePlusOffset
  refine ⟨fun w hop => decode_of_memoryAccessOf hop rfl, fun s sr base off => ?_⟩
  exact ⟨_, rfl, storeFrame_memWrite s (s.reg base + sext off) (s.reg sr)⟩

end Sys2Proof.Proofs
end

section
/-! PROOFS. RTI, the reserved opcode and the vectors of no routine (43_system.md R170, R172, R173): the fatal fault each
raises, and what it records (60_exceptions.md R201, R202). -/

namespace Sys2Proof.Proofs
open Sys2Proof Sys2Proof.Machine

/-! ### Their arms of `decode` (30_encoding.md R71, R78) -/

theorem decode_of_opcode_rti {w : Word} (hop : w.extractLsb' 12 4 = 0b1000#4) :
    decode w = .rti (w.extractLsb' 0 12) := by
  obtain ⟨h15, h14, h13, h12⟩ := bits_of_opcode hop
  rw [decode, h15, h14, h13, h12]
  rfl

theorem decode_of_opcode_reserved {w : Word} (hop : w.extractLsb' 12 4 = 0b1101#4) :
    decode w = .reserved (w.extractLsb' 0 12) := by
  obtain ⟨h15, h14, h13, h12⟩ := bits_of_opcode hop
  rw [decode, h15, h14, h13, h12]
  rfl

/-- R91: TRAP and the six routines share an opcode, and the vector tells them apart. -/
theorem decode_of_opcode_trap {w : Word} (hop : w.extractLsb' 12 4 = 0b1111#4) :
    decode w = (decodeTrap (w.extractLsb' 0 8)).elim (.trap (w.extractLsb' 0 8) (w.extractLsb' 8 4))
      (routine (w.extractLsb' 8 4)) := by
  obtain ⟨h15, h14, h13, h12⟩ := bits_of_opcode hop
  rw [← decodeTrapWord_eq, decode, h15, h14, h13, h12]
  rfl

/-- R78: the vectors that name no routine are those below 0x20 and those above 0x25. -/
theorem decodeTrap_eq_none_iff_lt_or_lt {v : Byte} : decodeTrap v = none ↔ v.toNat < 32 ∨ 37 < v.toNat := by
  refine ⟨lt_or_lt_of_decodeTrap_eq_none, fun hout => decodeTrap_eq_none_iff.mpr fun hmem => ?_⟩
  simp only [trapVectors, ← BitVec.toNat_inj, BitVec.toNat_ofNat, List.mem_cons, List.not_mem_nil,
    or_false] at hmem
  omega

theorem decode_trap_of_decodeTrap_none {w : Word} (hop : w.extractLsb' 12 4 = 0b1111#4)
    (hv : decodeTrap (w.extractLsb' 0 8) = none) : decode w = .trap (w.extractLsb' 0 8) (w.extractLsb' 8 4) := by
  rw [decode_of_opcode_trap hop, hv]
  rfl

/-! ### What the fault records -/

/-- R201, R202: the fetch left `pc` one past the instruction, so the address recorded is the one it was fetched from;
and the word of the instruction is the word fetched. -/
theorem step_of_exec_eq_raiseFault {s s1 : State} {ir : Word} {i : Instr} {reason : FaultRecord → Fault}
    (hrun : s.run = .running) (htop : s.pc ≠ 0xFFFF#16) (hread : Reads s s.pc ir s1) (hdecode : decode ir = i)
    (hfault : ∀ t, exec i t = raiseFault reason (encode i) t) :
    step s = .fault (reason ⟨s.pc, ir, s1.setPc (s.pc + 1#16)⟩) := by
  have hpc : (s1.setPc (s.pc + 1#16)).pc - 1#16 = s.pc := BitVec.add_sub_cancel s.pc 1#16
  rw [step_of_memRead hrun htop (memRead_of_reads hread), hdecode, hfault, raiseFault, hpc, ← hdecode, encode_decode]

/-- Settles O32: RTI does nothing but raise its fault. -/
theorem rtiAlwaysFaults : Obligations.RtiAlwaysFaults := by
  unfold Obligations.RtiAlwaysFaults
  refine ⟨fun w hop => decode_of_opcode_rti hop, fun s x => ⟨_, rfl, rfl⟩, fun s s1 ir hrun htop hread hop => ?_⟩
  exact step_of_exec_eq_raiseFault hrun htop hread (decode_of_opcode_rti hop) fun _ => rfl

/-- Settles O33: the reserved instruction does nothing but raise its fault. -/
theorem reservedOpcodeAlwaysFaults : Obligations.ReservedOpcodeAlwaysFaults := by
  unfold Obligations.ReservedOpcodeAlwaysFaults
  refine ⟨fun w hop => decode_of_opcode_reserved hop, fun s x => ⟨_, rfl, rfl⟩, fun s s1 ir hrun htop hread hop => ?_⟩
  exact step_of_exec_eq_raiseFault hrun htop hread (decode_of_opcode_reserved hop) fun _ => rfl

/-- Settles O34: a vector outside the six names no routine, and TRAP looks the vector up before it links. -/
theorem unknownVectorFaultsBeforeAnyEffect : Obligations.UnknownVectorFaultsBeforeAnyEffect := by
  unfold Obligations.UnknownVectorFaultsBeforeAnyEffect
  refine ⟨fun w hop hout => ?_, fun s v x hout => ?_, fun s s1 ir hrun htop hread hop hout => ?_⟩
  · exact decode_trap_of_decodeTrap_none hop (decodeTrap_eq_none_iff_lt_or_lt.mpr hout)
  · exact ⟨_, exec_trap_of_decodeTrap_none (decodeTrap_eq_none_iff_lt_or_lt.mpr hout) x s, rfl⟩
  · have hv := decodeTrap_eq_none_iff_lt_or_lt.mpr hout
    exact step_of_exec_eq_raiseFault hrun htop hread (decode_trap_of_decodeTrap_none hop hv)
      (exec_trap_of_decodeTrap_none hv _)

end Sys2Proof.Proofs
end

section
/-! PROOFS. The six trap routines (44_trap_routines.md R180 to R185): the bytes each emits, the answer GETC and IN take,
and that but for the optional link of R7 (R170) all else stays. -/

namespace Sys2Proof.Proofs
open Sys2Proof Sys2Proof.Machine

/-! ### Their words and their two spellings (30_encoding.md R78, R91) -/

theorem decode_of_routineVector {w : Word} (tag : TrapTag) (hop : w.extractLsb' 12 4 = 0b1111#4)
    (hv : w.extractLsb' 0 8 = routineVector tag) : decode w = routine (w.extractLsb' 8 4) tag := by
  rw [decode_of_opcode_trap hop, hv]
  cases tag <;> rfl

theorem exec_of_spelling (tag : TrapTag) {i : Instr} {x : BitVec 4} (s : State)
    (hi : i = routine x tag ∨ i = .trap (routineVector tag) x) : exec i s = exec (routine x tag) s := by
  obtain rfl | rfl := hi
  · rfl
  · exact exec_trap_routineVector tag x s

/-! ### Trap entry and output -/

theorem trapLink_trapEntry (s : State) : TrapLink s (s.trapEntry trapSavesR7) := State.setReg_reg_same s 7 _

theorem sameRegsBut_trapEntry (saves : Bool) (s : State) : SameRegsBut [7] s (s.trapEntry saves) :=
  fun _ hr => State.setReg_reg_other s _ (List.ne_of_not_mem_cons hr)

/-- The bytes are appended to the output, R7 is the optional link, and nothing else differs. -/
def EmitFrame (bytes : List Byte) (s t : State) : Prop :=
  t.out = s.out ++ bytes ∧ TrapLink s t ∧ SameRegsBut [7] s t ∧ t.cond = s.cond ∧ t.pc = s.pc ∧ t.run = s.run ∧
    SameMemBut [] s t ∧ t.dev = s.dev

theorem emitFrame_trapEntry (s : State) (bytes : List Byte) :
    EmitFrame bytes s ((s.trapEntry trapSavesR7).emit bytes) :=
  ⟨rfl, trapLink_trapEntry s, sameRegsBut_trapEntry trapSavesR7 s, rfl, rfl, rfl, fun _ _ => rfl, rfl⟩

theorem emit_nil (s : State) : s.emit [] = s := by simp [State.emit]

theorem emit_emit (s : State) (first second : List Byte) : (s.emit first).emit second = s.emit (first ++ second) := by
  simp [State.emit]

/-! ### Strings -/

/-- A string loop that goes on read a string that ends. -/
theorem stringRun_of_stringLoop {bytes : Word → List Byte} {n : Nat} {a : Word} {s t : State}
    (h : stringLoop bytes n a s = .next t) : StringRun bytes a s t := by
  induction n generalizing a s with
  | zero => cases h
  | succ n ih =>
    obtain ⟨w, s1, hread, hk⟩ := State.readThen_next h
    by_cases hw : w = 0x0000#16
    · subst hw
      rw [if_pos rfl] at hk
      obtain rfl := Host.Outcome.next.inj hk
      exact .stop (reads_of_memRead hread)
    · rw [if_neg hw] at hk
      exact .go (reads_of_memRead hread) hw (ih hk)

/-- R182, R184: with the bound of the string routines, the loop goes on exactly when the unbounded run ends. -/
theorem stringLoop_bound_eq_next_iff {bytes : Word → List Byte} {a : Word} {s t : State} :
    stringLoop bytes (stringBound s) a s = .next t ↔ StringRun bytes a s t :=
  ⟨stringRun_of_stringLoop, stringLoop_bound_of_stringRun⟩

theorem exec_puts_eq_stringLoop (x : BitVec 4) (s : State) : exec (.puts x) s =
    stringLoop lowByte (stringBound (s.trapEntry trapSavesR7)) (s.reg 0) (s.trapEntry trapSavesR7) := by
  rw [← putsBytes_eq_lowByte, ← reg_zero_trapEntry trapSavesR7 s]
  rfl

theorem exec_putsp_eq_stringLoop (x : BitVec 4) (s : State) : exec (.putsp x) s =
    stringLoop bothBytes (stringBound (s.trapEntry trapSavesR7)) (s.reg 0) (s.trapEntry trapSavesR7) := by
  rw [← putspBytes_eq_bothBytes, ← reg_zero_trapEntry trapSavesR7 s]
  rfl

/-- What a string emits whose `n` words before the zero word stand at the addresses from `a` on. -/
def stringOutput (bytes : Word → List Byte) (n : Nat) (a : Word) (s : State) : List Byte :=
  (List.range n).flatMap fun k => bytes (s.cell (a + BitVec.ofNat 16 k))

/-- A later word of the string from `a` is a word of the string from `a + 1`. -/
theorem add_one_add_ofNat (a : Word) (k : Nat) : a + 1#16 + BitVec.ofNat 16 k = a + BitVec.ofNat 16 (k + 1) := by
  rw [BitVec.add_assoc, Nat.add_comm k 1, BitVec.ofNat_add]

theorem stringOutput_succ (bytes : Word → List Byte) (n : Nat) (a : Word) (s : State) :
    stringOutput bytes (n + 1) a s = bytes (s.cell a) ++ stringOutput bytes n (a + 1#16) s := by
  simp [stringOutput, List.range_succ_eq_map, List.flatMap_map, add_one_add_ofNat]

/-- A string that does not pass the status cell is read without a poll, and ends with its output emitted. -/
theorem stringRun_of_plain_cells (bytes : Word → List Byte) {n : Nat} {a : Word} {s : State}
    (hplain : ∀ k, k ≤ n → a + BitVec.ofNat 16 k ≠ kbsrAddr)
    (hwords : ∀ k, k < n → s.cell (a + BitVec.ofNat 16 k) ≠ 0x0000#16)
    (hzero : s.cell (a + BitVec.ofNat 16 n) = 0x0000#16) :
    StringRun bytes a s (s.emit (stringOutput bytes n a s)) := by
  induction n generalizing a s with
  | zero =>
    have ha : a ≠ kbsrAddr := by simpa using hplain 0 le_rfl
    have hcell : s.cell a = 0x0000#16 := by simpa using hzero
    have hread : Reads s a 0x0000#16 s := hcell ▸ .plain a ha
    rw [stringOutput, List.range_zero, List.flatMap_nil, emit_nil]
    exact .stop hread
  | succ n ih =>
    have ha : a ≠ kbsrAddr := by simpa using hplain 0 (Nat.zero_le _)
    have hw : s.cell a ≠ 0x0000#16 := by simpa using hwords 0 n.succ_pos
    rw [stringOutput_succ, ← emit_emit]
    refine .go (.plain a ha) hw (ih (fun k hk => ?_) (fun k hk => ?_) ?_) <;> rw [add_one_add_ofNat]
    · exact hplain (k + 1) (Nat.succ_le_succ hk)
    · exact hwords (k + 1) (Nat.succ_lt_succ hk)
    · exact hzero

/-! ### The device's answer -/

theorem inputThen_of_next {s : State} {b : Byte} {d : Device} (k : Byte → State → Result)
    (hd : Device.next s.dev = some (b, d)) : s.inputThen k = k b { s with dev := d } := by
  rw [State.inputThen, State.devRead, hd]

/-- R27: a value whose bit 15 is clear never sets N. -/
theorem condOf_ne_negative {v : Word} (h : v.toNat < 32768) : condOf v ≠ 0b100#3 := by
  obtain ⟨hzero, -, hpos⟩ := flagsOf_condOf v
  obtain h0 | h0 := Nat.eq_zero_or_pos v.toNat
  · rw [hzero h0]
    decide
  · rw [hpos h0 h]
    decide

/-! ### The statements -/

/-- Settles O24: R0 is written last, and from the answer; the rest is the frame of a routine that sets no flag. -/
theorem getcStoresByteWithoutFlags : Obligations.GetcStoresByteWithoutFlags := by
  unfold Obligations.GetcStoresByteWithoutFlags
  refine ⟨fun w hop hv => decode_of_routineVector .getc hop hv, fun s i x b d hi hd => ?_⟩
  have hexec : exec (.getc x) s = .next (({ s.trapEntry trapSavesR7 with dev := d } : State).setReg 0 (zext16 b)) :=
    inputThen_of_next _ hd
  have frame := exec_frame hexec
  refine ⟨_, (exec_of_spelling .getc s hi).trans hexec, ?_, frame.link rfl, frame.regs, frame.noFlags rfl,
    frame.pc rfl, frame.run, fun _ _ => rfl, rfl, rfl⟩
  rw [State.setReg_reg_same, zext16_toNat]

/-- Settles O25: trap entry, then one byte. -/
theorem outEmitsLowByte : Obligations.OutEmitsLowByte := by
  unfold Obligations.OutEmitsLowByte
  refine ⟨fun w hop hv => decode_of_routineVector .out hop hv, fun s i x hi => ?_⟩
  have hexec : exec (.out x) s = .next ((s.trapEntry trapSavesR7).emit [(s.reg 0).setWidth 8]) := by
    rw [← lo8_eq_setWidth, ← reg_zero_trapEntry trapSavesR7 s]
    rfl
  exact ⟨_, (exec_of_spelling .out s hi).trans hexec, emitFrame_trapEntry s _⟩

/-- Settles O26: as O24, with output before and after the answer, and the flags of R0, which is below 256. -/
theorem inStoresByteAndSetsFlags : Obligations.InStoresByteAndSetsFlags := by
  unfold Obligations.InStoresByteAndSetsFlags
  refine ⟨fun w hop hv => decode_of_routineVector .inp hop hv, fun s i x b d hi hd => ?_⟩
  have hexec : exec (.inp x) s = .next
      ((({ (s.trapEntry trapSavesR7).emit inPrompt with dev := d } : State).emit
        (if inEcho then [b] else [])).setRegCc 0 (zext16 b)) :=
    inputThen_of_next _ hd
  have frame := exec_frame hexec
  have hbyte : (zext16 b).toNat = b.toNat := zext16_toNat b
  have hlt := b.isLt
  refine ⟨_, (exec_of_spelling .inp s hi).trans hexec, ?_, flagsOf_setRegCc _ 0 _, ?_, rfl, frame.link rfl, frame.regs,
    frame.pc rfl, frame.run, fun _ _ => rfl, rfl⟩
  · rw [setRegCc_reg_same, hbyte]
  · exact condOf_ne_negative (by omega)

/-- Settles O27: the string run of such a string emits its output, and PUTS goes on with it. -/
theorem putsEmitsLowBytesUntilZeroWord : Obligations.PutsEmitsLowBytesUntilZeroWord := by
  unfold Obligations.PutsEmitsLowBytesUntilZeroWord
  refine ⟨fun w hop hv => decode_of_routineVector .puts hop hv, fun s i x n hi _ hplain hwords hzero => ?_⟩
  have hrun := stringRun_of_plain_cells (s := s.trapEntry trapSavesR7) lowByte hplain hwords hzero
  exact ⟨_, exec_puts_of_stringRun hi hrun, emitFrame_trapEntry s _⟩

/-- Settles O28: as O27, with the bytes of PUTSP. -/
theorem putspEmitsBothBytesUntilZeroWord : Obligations.PutspEmitsBothBytesUntilZeroWord := by
  unfold Obligations.PutspEmitsBothBytesUntilZeroWord
  refine ⟨fun w hop hv => decode_of_routineVector .putsp hop hv, fun s i x n hi _ hplain hwords hzero => ?_⟩
  have hrun := stringRun_of_plain_cells (s := s.trapEntry trapSavesR7) bothBytes hplain hwords hzero
  exact ⟨_, exec_putsp_of_stringRun hi hrun, emitFrame_trapEntry s _⟩

/-- Settles O29: PUTS is the loop with a bound that no string that ends exceeds. -/
theorem putsEndsExactlyWithItsStringRun : Obligations.PutsEndsExactlyWithItsStringRun := by
  unfold Obligations.PutsEndsExactlyWithItsStringRun
  intro s t i x hi
  rw [(exec_of_spelling .puts s hi).trans (exec_puts_eq_stringLoop x s)]
  exact stringLoop_bound_eq_next_iff

/-- Settles O30: as O29, with the bytes of PUTSP. -/
theorem putspEndsExactlyWithItsStringRun : Obligations.PutspEndsExactlyWithItsStringRun := by
  unfold Obligations.PutspEndsExactlyWithItsStringRun
  intro s t i x hi
  rw [(exec_of_spelling .putsp s hi).trans (exec_putsp_eq_stringLoop x s)]
  exact stringLoop_bound_eq_next_iff

/-- Settles O31: trap entry, then output and the run state. -/
theorem haltSetsHalted : Obligations.HaltSetsHalted := by
  unfold Obligations.HaltSetsHalted
  refine ⟨fun w hop hv => decode_of_routineVector .halt hop hv, fun s i x hi => ?_⟩
  obtain ⟨hout, hlink, hregs, hcond, hpc, -, hmem, hdev⟩ := emitFrame_trapEntry s haltOutput
  exact ⟨((s.trapEntry trapSavesR7).emit haltOutput).setHalted, exec_of_spelling .halt s hi, rfl, hout, hlink, hregs,
    hcond, hpc, hmem, hdev⟩

end Sys2Proof.Proofs
end

section
/-! PROOFS. The fatal faults of a step (60_exceptions.md R200 to R205): PC_WRAP at the top of memory, and below it the
fault of the illegal instruction fetched. -/

namespace Sys2Proof.Proofs
open Sys2Proof Sys2Proof.Machine

/-- A step that stops with a fatal fault was made from Running, and its fetch was answered. -/
theorem exists_reads_of_step_fault {s : State} {f : Fault} {c : Nat} (h : step s = .fault f) (hc : f.code = some c) :
    s.run = .running ∧ ∃ ir s1, Reads s s.pc ir s1 := by
  unfold step at h
  cases hrun : s.run with
  | halted => rw [hrun] at h; cases h
  | running =>
    rw [hrun] at h
    obtain ⟨rfl, -⟩ | ⟨ir, s1, hread, -⟩ := State.readThen_fault h
    · cases hc
    · exact ⟨rfl, ir, s1, reads_of_memRead hread⟩

/-- R200: the word `ir` is the cause of the fatal fault of code `c`. -/
def IllegalCause (c : Nat) (ir : Word) : Prop :=
  (c = 1 ∧ ir.extractLsb' 12 4 = 0b1000#4) ∨ (c = 2 ∧ ir.extractLsb' 12 4 = 0b1101#4) ∨
    (c = 3 ∧ ir.extractLsb' 12 4 = 0b1111#4 ∧
      ((ir.extractLsb' 0 8).toNat < 32 ∨ 37 < (ir.extractLsb' 0 8).toNat))

/-- R201, R204: a fatal fault of the instruction of a word is raised by `raiseFault`, with the code that the word is
the cause of. -/
theorem exists_reason_of_exec_decode_fault {ir : Word} {s : State} {f : Fault} {c : Nat}
    (h : exec (decode ir) s = .fault f) (hc : f.code = some c) :
    ∃ reason : FaultRecord → Fault, (∀ t, exec (decode ir) t = raiseFault reason (encode (decode ir)) t) ∧
      (∀ r, (reason r).record = some r) ∧ IllegalCause c ir := by
  obtain ⟨x, hi⟩ | ⟨x, hi⟩ | ⟨v, x, hi, hv⟩ := onlyIllegalInstructionsFaultAndNoneIsRefused.2 s _ f c h hc
  · rw [hi] at h ⊢
    cases h
    have hop : ir.extractLsb' 12 4 = 0b1000#4 := by rw [← encode_decode ir, hi, opcode_encode_rti]
    exact ⟨.rti, fun _ => rfl, fun _ => rfl, .inl ⟨(Option.some.inj hc).symm, hop⟩⟩
  · rw [hi] at h ⊢
    cases h
    have hop : ir.extractLsb' 12 4 = 0b1101#4 := by rw [← encode_decode ir, hi, opcode_encode_reserved]
    exact ⟨.reserved, fun _ => rfl, fun _ => rfl, .inr (.inl ⟨(Option.some.inj hc).symm, hop⟩)⟩
  · have hexec := exec_trap_of_decodeTrap_none (decodeTrap_eq_none_iff_lt_or_lt.mpr hv) x
    obtain ⟨hop, rfl⟩ := trap_fields_of_decode hi rfl
    rw [hi, hexec] at h
    cases h
    rw [hi]
    exact ⟨.badTrap _, hexec, fun _ => rfl, .inr (.inr ⟨(Option.some.inj hc).symm, hop, hv⟩)⟩

/-- Settles O36: at 0xFFFF the step is the PC_WRAP fault of O35; elsewhere it is that of the word fetched, and `pc`
minus one is the address the word was fetched from. -/
theorem onlyTheListedFaults : Obligations.OnlyTheListedFaults := by
  unfold Obligations.OnlyTheListedFaults
  intro s f c h hc
  obtain ⟨hrun, ir, s1, hread⟩ := exists_reads_of_step_fault h hc
  by_cases htop : s.pc = 0xFFFF#16
  · have hplain : Reads s s.pc (s.cell s.pc) s := .plain s.pc (by rw [htop]; decide)
    obtain rfl := Host.Outcome.fault.inj (h.symm.trans (fetchAtTopOfMemoryFaults s hrun htop))
    exact ⟨_, s, hplain, .inl ⟨(Option.some.inj hc).symm, htop, by rw [htop]; rfl⟩⟩
  · have hexec := (step_of_memRead hrun htop (memRead_of_reads hread)).symm.trans h
    obtain ⟨reason, hreason, hrecord, hcause⟩ := exists_reason_of_exec_decode_fault hexec hc
    have hstep := step_of_exec_eq_raiseFault hrun htop hread rfl hreason
    obtain rfl := Host.Outcome.fault.inj (h.symm.trans hstep)
    exact ⟨ir, s1, hread, .inr ⟨htop, hrecord _, hcause⟩⟩

end Sys2Proof.Proofs
end

section
/-! PROOFS. The host's `load` (70_reset_and_hazards.md R230 to R233): which images it accepts, and the state it builds. -/

namespace Sys2Proof.Proofs
open Sys2Proof Sys2Proof.Machine

/-- R55: in the image the high byte of a word comes first. -/
@[simp] theorem toNat_wordBE (hi lo : Byte) : (wordBE hi lo).toNat = hi.toNat * 256 + lo.toNat := by
  rw [wordBE, BitVec.toNat_append, ← Nat.shiftLeft_add_eq_or_of_lt lo.isLt, Nat.shiftLeft_eq]

theorem toNat_getElem_wordsBE (bytes : List Byte) {k : Nat} (hk : k < (wordsBE bytes).length) :
    (wordsBE bytes)[k].toNat = (bytes.getD (2 * k) 0).toNat * 256 + (bytes.getD (2 * k + 1) 0).toNat := by
  induction bytes using wordsBE.induct generalizing k with
  | case1 hi lo rest ih =>
    cases k with
    | zero => exact toNat_wordBE hi lo
    | succ k => exact ih (Nat.lt_of_succ_lt_succ hk)
  | case2 | case3 => cases hk

theorem toNat_imageOrigin {image : List Byte} (h : 2 ≤ image.length) :
    (imageOrigin image).toNat = (image.getD 0 0).toNat * 256 + (image.getD 1 0).toNat := by
  match image, h with
  | hi :: lo :: rest, _ => exact toNat_wordBE hi lo

theorem toNat_getElem_imagePayload (image : List Byte) {k : Nat} (hk : k < (imagePayload image).length) :
    (imagePayload image)[k].toNat = (image.getD (2 + 2 * k) 0).toNat * 256 + (image.getD (3 + 2 * k) 0).toNat := by
  simp only [imagePayload, List.getElem_tail, toNat_getElem_wordsBE]
  rw [show 2 * (k + 1) = 2 + 2 * k by omega, show 2 + 2 * k + 1 = 3 + 2 * k by omega]

/-- R231, with the origin written out from the image's bytes. -/
theorem imageAccepted_iff {image : List Byte} : imageAccepted image = true ↔ 2 ≤ image.length ∧ image.length % 2 = 0 ∧
    (image.getD 0 0).toNat * 256 + (image.getD 1 0).toNat + (image.length - 2) / 2 ≤ 65536 := by
  simp only [imageAccepted, Bool.and_eq_true, decide_eq_true_eq, and_assoc]
  exact and_congr_right fun hlength => by rw [toNat_imageOrigin hlength]

theorem isSome_load (init : InitValues) (image : List Byte) : (load init image).isSome = imageAccepted image := by
  unfold load
  cases imageAccepted image <;> rfl

/-- R232, R36: what `load` puts into every field but memory, which is `mem_of_load`. -/
theorem fields_of_load {init : InitValues} {image : List Byte} {s : State} (h : load init image = some s) :
    s.pc = imageOrigin image ∧ s.x = init.gpr ∧ s.cond = init.cond ∧ s.run = .running ∧ s.out = [] ∧
      s.dev = init.dev := by
  unfold load at h
  split at h
  next =>
    obtain rfl := Option.some.inj h
    exact ⟨rfl, rfl, rfl, rfl, rfl, rfl⟩
  next => cases h

theorem toNat_add_ofNat_of_lt {a : Word} {k : Nat} (h : a.toNat + k < 65536) :
    (a + BitVec.ofNat 16 k).toNat = a.toNat + k := by
  simp only [BitVec.toNat_add, BitVec.toNat_ofNat]
  omega

section
variable {init : InitValues} {image : List Byte} {s : State}

/-- R230: the cell `k` places past the origin holds payload word `k`; no address wraps (R231). -/
theorem cell_payload_of_load (h : load init image = some s) {k : Nat} (hk : k < (imagePayload image).length) :
    s.cell (s.pc + BitVec.ofNat 16 k) = (imagePayload image)[k] := by
  obtain ⟨haccepted, hmem⟩ := mem_of_load h
  obtain ⟨hpc, -⟩ := fields_of_load h
  have hend := payload_end_le_of_imageAccepted haccepted
  have haddr := toNat_add_ofNat_of_lt (a := imageOrigin image) (k := k) (by omega)
  have hin : (imageOrigin image).toNat ≤ (imageOrigin image).toNat + k ∧
      (imageOrigin image).toNat + k < (imageOrigin image).toNat + (imagePayload image).length := by omega
  simp only [State.cell, hmem, hpc, haddr, Memory.read_writeWords, dif_pos hin, Nat.add_sub_cancel_left]

/-- R36: a cell outside the payload holds what INIT_MEM gives it. -/
theorem cell_of_load_of_ne (h : load init image = some s) {a : Word}
    (ha : ∀ k, k < (imagePayload image).length → a ≠ s.pc + BitVec.ofNat 16 k) :
    s.cell a = Memory.read init.mem a.toNat := by
  obtain ⟨haccepted, hmem⟩ := mem_of_load h
  obtain ⟨hpc, -⟩ := fields_of_load h
  have hend := payload_end_le_of_imageAccepted haccepted
  have hout : ¬((imageOrigin image).toNat ≤ a.toNat ∧
      a.toNat < (imageOrigin image).toNat + (imagePayload image).length) := by
    rintro ⟨hlo, hhi⟩
    have haddr := toNat_add_ofNat_of_lt (a := imageOrigin image) (k := a.toNat - (imageOrigin image).toNat) (by omega)
    refine ha (a.toNat - (imageOrigin image).toNat) (by omega) (BitVec.eq_of_toNat_eq ?_)
    rw [hpc, haddr]
    omega
  rw [State.cell, hmem, Memory.read_writeWords, dif_neg hout]

end

/-- Settles O58: `load` accepts the images of R231, writes the payload from the origin up, and takes everything else
from the initial values. -/
theorem loadBuildsTheInitialState : Obligations.LoadBuildsTheInitialState := by
  unfold Obligations.LoadBuildsTheInitialState
  refine fun init image => ⟨by rw [isSome_load, imageAccepted_iff], fun s h => ?_⟩
  obtain ⟨haccepted, -⟩ := mem_of_load h
  obtain ⟨hlength, -⟩ := imageAccepted_iff.mp haccepted
  obtain ⟨hpc, hrest⟩ := fields_of_load h
  simp only [← length_imagePayload]
  refine ⟨by rw [hpc, toNat_imageOrigin hlength], fun k hk => ?_, fun a ha => cell_of_load_of_ne h ha, hrest⟩
  rw [cell_payload_of_load h hk, toNat_getElem_imagePayload]

end Sys2Proof.Proofs
end

section
/-! PROOFS. The host's `step` and `run` (70_reset_and_hazards.md R240 to R244): a run of some steps goes on from where it
stands, so its first end is its only one. -/

namespace Sys2Proof.Proofs
open Sys2Proof Sys2Proof.Machine

/-- Settles O42: the step is defined from Running only. -/
theorem haltedMachineHasNoStep : Obligations.HaltedMachineHasNoStep := by
  unfold Obligations.HaltedMachineHasNoStep
  intro s hrun
  rw [step, hrun]

/-! ### One step -/

/-- R240, R241: what the host sees of each outcome of a step. -/
inductive HostStepOf (s : State) : StepOutcome → Prop where
  | next (t : State) (hstep : step s = .next t) (hrun : t.run = .running) : HostStepOf s (.next t)
  | halt (t : State) (hstep : step s = .next t) (hrun : t.run = .halted) : HostStepOf s (.halt t)
  | fault (f : Fault) (c : Nat) (hstep : step s = .fault f) (hcode : f.code = some c) : HostStepOf s (.fault f)
  | stuck (f : Fault) (hstep : step s = .fault f) (hcode : f.code = none) : HostStepOf s (.stuck f)
  | refused (r : Refusal) (hstep : step s = .refused r) : HostStepOf s (.refused r)

theorem hostStepOf_hostStep (s : State) : HostStepOf s (hostStep s) := by
  unfold hostStep
  cases hstep : step s with
  | next t =>
    cases hrun : t.run with
    | running => simpa only [hrun] using HostStepOf.next t hstep hrun
    | halted => simpa only [hrun] using HostStepOf.halt t hstep hrun
  | fault f =>
    cases hcode : f.code with
    | some c => simpa only [hcode] using HostStepOf.fault f c hstep hcode
    | none => simpa only [hcode] using HostStepOf.stuck f hstep hcode
  | refused r => exact .refused r hstep

theorem HostStepOf.hostStep_eq {s : State} {o : StepOutcome} (h : HostStepOf s o) : hostStep s = o := by
  cases h with
  | next t hstep hrun | halt t hstep hrun => simp only [hostStep, hstep, hrun]
  | fault f c hstep hcode => simp only [hostStep, hstep, hcode]
  | stuck f hstep hcode => simp only [hostStep, hstep, hcode]
  | refused r hstep => simp only [hostStep, hstep]

/-! ### Several steps -/

/-- The run goes on for `n` more steps if it has not ended and is not stuck. -/
def continueRun (n : Nat) : RunOutcome → RunOutcome
  | .unfinished t => runFor n t
  | o => o

theorem runFor_add (n m : Nat) (s : State) : runFor (n + m) s = continueRun m (runFor n s) := by
  induction n generalizing s with
  | zero => rw [Nat.zero_add]; rfl
  | succ n ih =>
    rw [Nat.succ_add, runFor, runFor]
    cases hostStep s with
    | next t => exact ih t
    | _ => rfl

/-- A larger allowance does not change an outcome that does not go on. -/
theorem runFor_eq_of_le {n m : Nat} {s : State} {o : RunOutcome} (h : runFor n s = o)
    (hend : ∀ k, continueRun k o = o) (hle : n ≤ m) : runFor m s = o := by
  rw [← Nat.add_sub_cancel' hle, runFor_add, h, hend]

theorem runFor_succ_of_unfinished {n : Nat} {s t : State} (h : runFor n s = .unfinished t) :
    runFor (n + 1) s = runFor 1 t := by
  rw [runFor_add, h, continueRun]

/-- What the outcome of a run from `s` says of the state or the fault in it (R243). -/
def Reports (s : State) : RunOutcome → Prop
  | .halted t => t.run = .halted
  | .stopped f => ∃ c, f.code = some c
  | .stuck f => f.code = none
  | .refused _ => True
  | .unfinished t => s.run = .running → t.run = .running

theorem Reports.of_running {s t : State} {o : RunOutcome} (h : Reports t o) (ht : t.run = .running) : Reports s o := by
  cases o with
  | unfinished u => exact fun _ => h ht
  | halted | stopped | stuck | refused => exact h

theorem reports_runFor (n : Nat) (s : State) : Reports s (runFor n s) := by
  induction n generalizing s with
  | zero => exact id
  | succ n ih =>
    have hspec := hostStepOf_hostStep s
    rw [runFor]
    generalize hostStep s = o at hspec
    cases hspec with
    | next t _ hrun => exact (ih t).of_running hrun
    | halt t _ hrun => exact hrun
    | fault f c _ hcode => exact ⟨c, hcode⟩
    | stuck f _ hcode => exact hcode
    | refused => trivial

theorem reports_of_runFor {n : Nat} {s : State} {o : RunOutcome} (h : runFor n s = o) : Reports s o :=
  h ▸ reports_runFor n s

/-- Two runs from one state that cannot go on have one outcome, whatever their allowances. -/
theorem outcome_unique {n m : Nat} {s : State} {o p : RunOutcome} (hn : runFor n s = o) (hm : runFor m s = p)
    (ho : ∀ k, continueRun k o = o) (hp : ∀ k, continueRun k p = p) : o = p := by
  obtain hle | hle := Nat.le_total n m
  · exact (runFor_eq_of_le hn ho hle).symm.trans hm
  · exact hn.symm.trans (runFor_eq_of_le hm hp hle)

/-- Settles O60: an outcome other than `unfinished` stays, and an unfinished run takes the outcome of its next step. -/
theorem runEndsAtTheFirstHaltOrFault : Obligations.RunEndsAtTheFirstHaltOrFault := by
  unfold Obligations.RunEndsAtTheFirstHaltOrFault
  refine ⟨fun n m s t h hle => ?halted, fun n m s f h hle => ?stopped, fun n m s f h => ?stuck,
    fun n s t hrun h => reports_of_runFor h hrun, fun n s t f _ h => ?unfinished⟩
  case halted =>
    have hrun : t.run = .halted := reports_of_runFor h
    exact ⟨runFor_eq_of_le h (fun _ => rfl) hle, hrun, haltedMachineHasNoStep t hrun⟩
  case stopped => exact ⟨runFor_eq_of_le h (fun _ => rfl) hle, reports_of_runFor h⟩
  case stuck =>
    refine ⟨reports_of_runFor h, runFor_eq_of_le h (fun _ => rfl), fun u hu => ?_, fun g hg => ?_⟩
    · cases outcome_unique h hu (fun _ => rfl) (fun _ => rfl)
    · cases outcome_unique h hg (fun _ => rfl) (fun _ => rfl)
  case unfinished =>
    rw [runFor_succ_of_unfinished h, runFor]
    refine ⟨fun c hcode hstep => ?_, fun hcode hstep => ?_, fun u hstep hrun => ?_⟩
    · rw [HostStepOf.hostStep_eq (.fault f c hstep hcode)]
    · rw [HostStepOf.hostStep_eq (.stuck f hstep hcode)]
    · rw [HostStepOf.hostStep_eq (.halt u hstep hrun)]

end Sys2Proof.Proofs
end
